-- ==== Sys2Proof/Word.lean ====
section
/-!
DEFINITION. The widths of the block's data (00_scope.md R8, R10; 10_state.md R21, R22, R31).
-/
namespace Sys2Proof

/-- One byte of a byte buffer. -/
abbrev Byte := BitVec 8

/-- A 16-bit pattern: a command word, STATUS, a 2-byte header field, or the two's-complement
pattern of an I16 element (R31). -/
abbrev Half := BitVec 16

/-- A 32-bit pattern: a 4-byte header field or a U32 element. -/
abbrev Word := BitVec 32

/-- A slot number. It is a 2-bit field, "so no slot number is out of range" (R21). -/
abbrev SlotNo := Fin 4

end Sys2Proof
end

