-- ==== Sys2Proof/Config.lean ====
section
/-!
DEFINITION. The OPEN implementation parameter of 00_scope.md R8, `PB_MAX`, as a value no proof can see. The
fixed parameters of R8 stand where they are used: the 44 header bytes in the codec and in HostLoad, the
widths in Word.lean, the four slots in `SlotNo`. No rule reads `HOST_BINDING` (20_memory.md R69).
-/
namespace Sys2Proof

/-- The bound R8 puts on `PB_MAX`: 2^32 − 37. -/
def Config.pbMaxBound : Nat := 4294967259

/-- Which `PB_MAX` the implementation has is OPEN (R8, D4). This number selects it; it has no body, so
every statement about it holds for every value (log entry 5). -/
opaque Config.pbMaxChoice : Nat

/-- The capacity a number selects: as the number runs through the naturals, this runs through exactly the
capacities R8 allows, the multiples of 4 up to 4294967259. -/
def Config.pbMaxOf (n : Nat) : Nat := 4 * min n (Config.pbMaxBound / 4)

/-- `PB_MAX`, the capacity in bytes of each payload byte buffer and of each sample buffer. -/
def Config.pbMax : Nat := Config.pbMaxOf Config.pbMaxChoice

end Sys2Proof
end

