-- ==== Sys2Proof/Syntax.lean ====
section
/-!
DEFINITION. The thirteen commands of opcode_table.json (00_scope.md R3, 30_encoding.md R82, R83), one
constructor per row. `d` is the destination slot RD, `a` the source slot RS1, `b` the second source slot
RS2 of M2S.
-/
namespace Sys2Proof

/-- One command. The four modes of S2M are four rows (R84). -/
inductive Instr where
  | hdec (d a : SlotNo)
  | henc (d a : SlotNo)
  | d16 (d a : SlotNo)
  | e16 (d a : SlotNo)
  | d32 (d a : SlotNo)
  | e32 (d a : SlotNo)
  | s2mLeft (d a : SlotNo)
  | s2mRight (d a : SlotNo)
  | s2mSum (d a : SlotNo)
  | s2mDiff (d a : SlotNo)
  | m2s (d a b : SlotNo)
  | mse (d a : SlotNo)
  | msd (d a : SlotNo)
  deriving DecidableEq, Repr

end Sys2Proof
end

