-- ==== Sys2Proof/WellFormed.lean ====
section
/-!
DEFINITION. What a well-formed command word and a legal capacity are. An `Instr` itself has no ill-formed
term: its only operands are slot numbers, and none is out of range (10_state.md R21). What can be
ill-formed is the 16-bit word, by 30_encoding.md R80 and R85, and the parameter PB_MAX, by 00_scope.md R8.
-/
namespace Sys2Proof

/-- Bits [15:12] of a command word (R80). -/
def opcField (w : Half) : BitVec 4 := w.extractLsb' 12 4
/-- Bits [11:10] (R80). -/
def modeField (w : Half) : BitVec 2 := w.extractLsb' 10 2
/-- Bits [9:8] (R80). -/
def rdField (w : Half) : BitVec 2 := w.extractLsb' 8 2
/-- Bits [7:6] (R80). -/
def rs1Field (w : Half) : BitVec 2 := w.extractLsb' 6 2
/-- Bits [5:4] (R80). -/
def rs2Field (w : Half) : BitVec 2 := w.extractLsb' 4 2
/-- Bits [3:0] (R80). -/
def zeroField (w : Half) : BitVec 4 := w.extractLsb' 0 4

/-- The operation codes that are not reserved (R82). -/
def opcAssigned (o : BitVec 4) : Bool :=
  o = 0x1 || o = 0x2 || o = 0x3 || o = 0x4 || o = 0x5 || o = 0x6 ||
  o = 0x8 || o = 0x9 || o = 0xA || o = 0xB

/-- A word is a command when its operation code is assigned, ZERO is 0, MODE is 0 but in S2M, and RS2 is 0
but in M2S (R80, R85). -/
def wordWellFormed (w : Half) : Bool :=
  opcAssigned (opcField w) && zeroField w = 0 &&
  (opcField w = 0x8 || modeField w = 0) && (opcField w = 0x9 || rs2Field w = 0)

/-- What R8 says of `PB_MAX`: "must be a multiple of 4 and at most 4294967259". -/
def pbMaxLegal (n : Nat) : Bool := n % 4 = 0 && n ≤ Config.pbMaxBound

end Sys2Proof
end

