-- ==== Sys2Proof/Decode.lean ====
section
/-!
DEFINITION. The decoder of 30_encoding.md R87, total on 16-bit words, the rows of R84 (match and mask), and
the encoder written from the word column of R82 and INDEX.md.
-/
namespace Sys2Proof

/-- Why a word is reserved (R85). Whichever it is, the command is an IllegalCommand; the name is for the
reader. -/
inductive Illegal where
  /-- ZERO is not 0. -/
  | zeroNotZero
  /-- MODE is not 0 in a command other than S2M. -/
  | modeNotZero
  /-- RS2 is not 0 in a command other than M2S. -/
  | rs2NotZero
  /-- OPC is 0x0, 0x7 or 0xC to 0xF. -/
  | reservedOpc
  deriving DecidableEq, Repr

/-- A 2-bit slot field "used as it stands" (R81). -/
def slotOf (v : BitVec 2) : SlotNo := v.toFin

/-- The S2M row of a mode (R83). -/
def decodeS2M (mode : BitVec 2) (d a : SlotNo) : Instr :=
  if mode = 0 then .s2mLeft d a
  else if mode = 1 then .s2mRight d a
  else if mode = 2 then .s2mSum d a
  else .s2mDiff d a

/-- The two-operand commands other than S2M (R82), by operation code. -/
def decodeTwoOperand (opc : BitVec 4) (d a : SlotNo) : Except Illegal Instr :=
  if opc = 0x1 then .ok (.hdec d a)
  else if opc = 0x2 then .ok (.henc d a)
  else if opc = 0x3 then .ok (.d16 d a)
  else if opc = 0x4 then .ok (.e16 d a)
  else if opc = 0x5 then .ok (.d32 d a)
  else if opc = 0x6 then .ok (.e32 d a)
  else if opc = 0xA then .ok (.mse d a)
  else if opc = 0xB then .ok (.msd d a)
  else .error .reservedOpc

/-- The decoding algorithm of R87, its tests in its order. -/
def decode (w : Half) : Except Illegal Instr :=
  let opc := opcField w
  let mode := modeField w
  let d := slotOf (rdField w)
  let a := slotOf (rs1Field w)
  if zeroField w ≠ 0 then .error .zeroNotZero
  else if opc = 0x8 then
    if rs2Field w ≠ 0 then .error .rs2NotZero else .ok (decodeS2M mode d a)
  else if opc = 0x9 then
    if mode ≠ 0 then .error .modeNotZero else .ok (.m2s d a (slotOf (rs2Field w)))
  else if mode ≠ 0 then .error .modeNotZero
  else if rs2Field w ≠ 0 then .error .rs2NotZero
  else decodeTwoOperand opc d a

/-- The instruction read from an instruction of `nbits` bits numbered as opcode_table.json numbers them.
A command is one 16-bit word (R80, R86), so bits above `nbits` are 0 and a number that needs more than 16
bits is no command. -/
def decodeTableWord (nbits w : Nat) : Option Instr :=
  let v := w % 2 ^ nbits
  if v < 65536 then (decode (BitVec.ofNat 16 v)).toOption else none

/-- The word of a two-operand row: its match with RD in [9:8] and RS1 in [7:6] (R80, R84). -/
def wordOf (base : Nat) (d a : SlotNo) : Half := BitVec.ofNat 16 (base + d.val * 256 + a.val * 64)

/-- The command word of each instruction (R82, R84; the word column of INDEX.md). -/
def encode : Instr → Half
  | .hdec d a => wordOf 0x1000 d a
  | .henc d a => wordOf 0x2000 d a
  | .d16 d a => wordOf 0x3000 d a
  | .e16 d a => wordOf 0x4000 d a
  | .d32 d a => wordOf 0x5000 d a
  | .e32 d a => wordOf 0x6000 d a
  | .s2mLeft d a => wordOf 0x8000 d a
  | .s2mRight d a => wordOf 0x8400 d a
  | .s2mSum d a => wordOf 0x8800 d a
  | .s2mDiff d a => wordOf 0x8C00 d a
  | .m2s d a b => BitVec.ofNat 16 (0x9000 + d.val * 256 + a.val * 64 + b.val * 16)
  | .mse d a => wordOf 0xA000 d a
  | .msd d a => wordOf 0xB000 d a

/-- One row of the table of R84. -/
structure OpcodeRow where
  pattern : Half
  mask : Half
  deriving DecidableEq, Repr

/-- "A word w is the command of a row when w AND mask = match" (R84). -/
def OpcodeRow.covers (r : OpcodeRow) (w : Half) : Bool := w &&& r.mask = r.pattern

/-- The row of each instruction (R84). -/
def rowOf : Instr → OpcodeRow
  | .hdec _ _ => ⟨0x1000, 0xFC3F⟩
  | .henc _ _ => ⟨0x2000, 0xFC3F⟩
  | .d16 _ _ => ⟨0x3000, 0xFC3F⟩
  | .e16 _ _ => ⟨0x4000, 0xFC3F⟩
  | .d32 _ _ => ⟨0x5000, 0xFC3F⟩
  | .e32 _ _ => ⟨0x6000, 0xFC3F⟩
  | .s2mLeft _ _ => ⟨0x8000, 0xFC3F⟩
  | .s2mRight _ _ => ⟨0x8400, 0xFC3F⟩
  | .s2mSum _ _ => ⟨0x8800, 0xFC3F⟩
  | .s2mDiff _ _ => ⟨0x8C00, 0xFC3F⟩
  | .m2s _ _ _ => ⟨0x9000, 0xFC0F⟩
  | .mse _ _ => ⟨0xA000, 0xFC3F⟩
  | .msd _ _ => ⟨0xB000, 0xFC3F⟩

/-- The thirteen rows of R84, in its order. -/
def opcodeRows : List OpcodeRow :=
  [⟨0x1000, 0xFC3F⟩, ⟨0x2000, 0xFC3F⟩, ⟨0x3000, 0xFC3F⟩, ⟨0x4000, 0xFC3F⟩, ⟨0x5000, 0xFC3F⟩,
   ⟨0x6000, 0xFC3F⟩, ⟨0x8000, 0xFC3F⟩, ⟨0x8400, 0xFC3F⟩, ⟨0x8800, 0xFC3F⟩, ⟨0x8C00, 0xFC3F⟩,
   ⟨0x9000, 0xFC0F⟩, ⟨0xA000, 0xFC3F⟩, ⟨0xB000, 0xFC3F⟩]

end Sys2Proof
end

