-- ==== Sys2Proof/Machine/State.lean ====
section
/-!
DEFINITION. What the machine holds (10_state.md R20 to R44, R55), as plain data: the block's own state (four
slots and STATUS), the open parameter PB_MAX, and the host's side of a run (00_scope.md R18).
-/
namespace Sys2Proof.Machine

/-- A tag field: four bytes in file order, not an integer (10_state.md R23, 20_memory.md R61). -/
structure Tag where
  b0 : Byte
  b1 : Byte
  b2 : Byte
  b3 : Byte
  deriving DecidableEq, Repr

/-- The header record of 10_state.md R22, its thirteen fields in the order of that table. Every field holds
every value of its width. -/
structure WaveHeader where
  chunkId : Tag
  chunkSize : Word
  format : Tag
  subchunk1Id : Tag
  subchunk1Size : Word
  audioFormat : Half
  numChannels : Half
  sampleRate : Word
  byteRate : Word
  blockAlign : Half
  bitsPerSample : Half
  subchunk2Id : Tag
  subchunk2Size : Word
  deriving DecidableEq, Repr

/-- The three values of the kind tag `SK` (10_state.md R30). -/
inductive SampleKind where
  | none
  | i16
  | u32
  deriving DecidableEq, Repr

/-- A sample buffer `S` with its kind tag `SK` (10_state.md R30). `none` is kind NONE, "the buffer holds no
value" (DEDUCED, log entry 4); an I16 element is its two's-complement pattern (R31). -/
inductive SampleBuffer where
  | none
  | i16 (q : List Half)
  | u32 (q : List Word)
  deriving DecidableEq, Repr

/-- The four independent components of one slot (10_state.md R20). -/
structure Slot where
  /-- `HB`, the header byte buffer (R28). -/
  hb : List Byte
  /-- `PB`, the payload byte buffer (R29). -/
  pb : List Byte
  /-- `HV`, the valid bit of the header register (R24). -/
  hv : Bool
  /-- `H`, the header register (R22). -/
  h : WaveHeader
  /-- `S` and `SK`, the sample buffer and its kind (R30). -/
  sb : SampleBuffer
  deriving DecidableEq, Repr

/-- The five host actions of 20_memory.md R70. -/
inductive HostAction where
  | reset
  | load (k : SlotNo) (q : List Byte)
  | cmd (w : Half)
  | status
  | store (k : SlotNo)
  deriving DecidableEq, Repr

/-- What a HostStatus or a HostStore returns (20_memory.md R70). -/
inductive HostReply where
  | status (w : Half)
  | file (q : List Byte)
  deriving DecidableEq, Repr

/-- The machine. `slots` and `status` are the block's; the rest is the model's own (log entries 2 and 5). -/
structure State where
  /-- The four slots (10_state.md R20). -/
  slots : Vector Slot 4
  /-- STATUS (10_state.md R40). -/
  status : Half
  /-- `PB_MAX` (00_scope.md R8): configuration, which no step changes. -/
  pbMax : Nat
  /-- The list of host actions of the run (00_scope.md R18). -/
  script : List HostAction
  /-- The index into that list: what 10_state.md R50 puts where a program counter would be. -/
  index : Nat
  /-- The values returned so far by HostStatus and HostStore, oldest first: "the observable result of a
  run" (00_scope.md R18). -/
  replies : List HostReply
  deriving DecidableEq, Repr

/-- Why the machine has no next state. The spec's own faults (60_exceptions.md R200) are not here: a
command that raises one ends with a next state, in which STATUS records it. -/
inductive Fault where
  /-- Raised by `step` alone, when every host action of the run has been done: "It ends when the list is
  exhausted" (00_scope.md R18). A stuck state; safe, since nothing is claimed past the end of a run. -/
  | runEnded
  deriving DecidableEq, Repr

/-- Why the model gives a step no meaning. -/
inductive Refusal where
  /-- Raised by `exec` in the arm of an instruction that has no meaning yet; safe. No arm is left so. -/
  | notModelled (mnemonic : String)
  /-- Raised by the host action HostLoad alone, for a sequence longer than 44 + PB_MAX bytes: "the action is
  not available and a model gives it no step" (20_memory.md R71, 93_implementation_defined.md U14); safe. -/
  | loadTooLong
  deriving DecidableEq, Repr

/-- A tag of four zero bytes (log entry 3). -/
def Tag.zero : Tag := ⟨0, 0, 0, 0⟩

/-- DESIGN CHOICE (log entry 3): the spec leaves the fields of a header register unspecified after reset,
and unreadable while `HV = 0` (10_state.md R55); the model holds zeros there. -/
def WaveHeader.zero : WaveHeader :=
  ⟨Tag.zero, 0, Tag.zero, Tag.zero, 0, 0, 0, 0, 0, 0, 0, Tag.zero, 0⟩

/-- A slot after reset (10_state.md R55). -/
def Slot.reset : Slot := { hb := [], pb := [], hv := false, h := WaveHeader.zero, sb := .none }

/-- The machine right after reset (10_state.md R55, 70_reset_and_hazards.md R230), no host action given
yet: "after reset the block waits for the host" (R231). -/
def State.reset : State :=
  { slots := Vector.replicate 4 Slot.reset
    status := 0
    pbMax := Config.pbMax
    script := []
    index := 0
    replies := [] }

end Sys2Proof.Machine
end

