-- ==== Sys2Proof/Machine/Operands.lean ====
section
/-!
DEFINITION. The numeric primitives of 00_scope.md R12, the buffer primitives of R13, and the operand forms
the commands share: little-endian integers, tags, stereo pairs, and the byte form of a sample sequence.
-/
namespace Sys2Proof.Machine

/-- `u16(v) = v mod 65536` (R12), as the 16-bit pattern. -/
def u16 (v : Int) : Half := BitVec.ofInt 16 v

/-- `s16(u)`: a 16-bit pattern read as two's complement (R12). -/
def s16 (p : Half) : Int := p.toInt

/-- `zext_32(u)`: a 16-bit pattern in a 32-bit word, upper bits 0 (R12). -/
def zext32 (p : Half) : Word := p.zeroExtend 32

/-- `sext_17(x)`: a 16-bit pattern held in 17 bits two's complement (R12). -/
def sext17 (p : Half) : BitVec 17 := p.signExtend 17

/-- `floor2(x)`: floor(x / 2), for any integer (R12). Lean's `/` on `Int` rounds down for a positive
divisor. -/
def floor2 (x : Int) : Int := x / 2

/-- The formula R12 quotes "for languages whose division truncates":
`floorDiv(a,b) = (a - ((a % b + b) % b)) / b`, with truncating `%` and `/`. -/
def floorDivTruncating (a b : Int) : Int := (a - (a.tmod b + b).tmod b).tdiv b

/-- `clamp16(x)`: saturation to the signed 16-bit range (R12). -/
def clamp16 (x : Int) : Int := if x < -32768 then -32768 else if 32767 < x then 32767 else x

/-- `le16(b0,b1)`, `b0` first in the buffer (R12). -/
def le16 (b0 b1 : Byte) : Nat := b0.toNat + 256 * b1.toNat

/-- `le32(b0,b1,b2,b3)` (R12). -/
def le32 (b0 b1 b2 b3 : Byte) : Nat :=
  b0.toNat + 256 * b1.toNat + 65536 * b2.toNat + 16777216 * b3.toNat

/-- The unsigned little-endian integer made of a byte sequence, first byte least significant
(20_memory.md R60). -/
def leNat : List Byte → Nat
  | [] => 0
  | b :: rest => b.toNat + 256 * leNat rest

/-- `bytes_le(v, n)`: the n bytes `(v div 256^k) mod 256`, least significant first (R12). -/
def bytesLe (v : Nat) : Nat → List Byte
  | 0 => []
  | n + 1 => BitVec.ofNat 8 v :: bytesLe (v / 256) n

/-- `MemRead(B@off, n)` (R13). -/
def memRead (buf : List Byte) (off n : Nat) : Nat := leNat ((buf.drop off).take n)

/-- `MemWrite(B@off, n, v)` (R13). -/
def memWrite (buf : List Byte) (off n v : Nat) : List Byte :=
  buf.take off ++ bytesLe v n ++ buf.drop (off + n)

/-- A 4-byte field of the header, an unsigned little-endian integer (40_header_codec.md R100). -/
def wordAt (buf : List Byte) (off : Nat) : Word := BitVec.ofNat 32 (memRead buf off 4)

/-- A 2-byte field of the header (40_header_codec.md R100). -/
def halfAt (buf : List Byte) (off : Nat) : Half := BitVec.ofNat 16 (memRead buf off 2)

/-- The tag at an offset: byte k of the tag is byte off + k of the buffer (20_memory.md R61). -/
def tagAt (buf : List Byte) (off : Nat) : Tag :=
  ⟨buf.getD off 0, buf.getD (off + 1) 0, buf.getD (off + 2) 0, buf.getD (off + 3) 0⟩

/-- The four bytes of a tag in file order (10_state.md R23). -/
def Tag.bytes (t : Tag) : List Byte := [t.b0, t.b1, t.b2, t.b3]

/-- The complete left, right pairs of an interleaved buffer: even indices left, odd indices right, an
unmatched last element dropped (10_state.md R32, 42_stereo_to_mono.md R140 step 4). -/
def stereoPairs {α : Type} : List α → List (α × α)
  | l :: r :: rest => (l, r) :: stereoPairs rest
  | [_] => []
  | [] => []

/-- Interleaving: element 2i is the left of pair i, element 2i + 1 its right (43_mono_to_stereo.md R160
step 6). -/
def interleave {α : Type} : List (α × α) → List α
  | [] => []
  | (l, r) :: rest => l :: r :: interleave rest

/-- The I16 elements of a payload, two bytes each (41_sample_codec.md R120). A byte that is left over at the
end gives no element; D16 never gets that far. -/
def samples16 : List Byte → List Half
  | b0 :: b1 :: rest => BitVec.ofNat 16 (le16 b0 b1) :: samples16 rest
  | [_] => []
  | [] => []

/-- The bytes of I16 elements, low byte first (41_sample_codec.md R121). -/
def bytes16 : List Half → List Byte
  | [] => []
  | p :: rest => bytesLe p.toNat 2 ++ bytes16 rest

/-- The U32 elements of a payload, four bytes each (41_sample_codec.md R122). -/
def samples32 : List Byte → List Word
  | b0 :: b1 :: b2 :: b3 :: rest => BitVec.ofNat 32 (le32 b0 b1 b2 b3) :: samples32 rest
  | _ => []

/-- The bytes of U32 elements, least significant byte first (41_sample_codec.md R123). -/
def bytes32 : List Word → List Byte
  | [] => []
  | w :: rest => bytesLe w.toNat 4 ++ bytes32 rest

/-- The kind tag `SK` of a sample buffer (10_state.md R30). -/
def SampleBuffer.kind : SampleBuffer → SampleKind
  | .none => .none
  | .i16 _ => .i16
  | .u32 _ => .u32

/-- How many bytes of capacity a sample buffer takes: "the capacity of S is PB_MAX bytes worth of elements"
(10_state.md R34). -/
def SampleBuffer.byteSize : SampleBuffer → Nat
  | .none => 0
  | .i16 q => 2 * q.length
  | .u32 q => 4 * q.length

end Sys2Proof.Machine
end

