-- ==== Sys2Proof/Machine/Flags.lean ====
section
/-!
DEFINITION. STATUS: its fields (10_state.md R40), the fault codes (60_exceptions.md R200) and the update every
command makes (R205). There are no arithmetic flags (10_state.md R43).
-/
namespace Sys2Proof.Machine

/-- The six faults of R200. FormatMismatch (code 4) is an advisory and never a fault (R204), so it is not
among them and `ERR` can never hold 4 (10_state.md R41). -/
inductive FaultCode where
  | truncatedInput
  | misalignedBuffer
  | unsupportedFormat
  | illegalCommand
  | invalidOperand
  | rangeOverflow
  deriving DecidableEq, Repr

/-- The code numbers of R200. -/
def FaultCode.code : FaultCode → Nat
  | .truncatedInput => 1
  | .misalignedBuffer => 2
  | .unsupportedFormat => 3
  | .illegalCommand => 5
  | .invalidOperand => 6
  | .rangeOverflow => 7

/-- The code of the advisory FormatMismatch (R200). -/
def formatMismatchCode : Nat := 4

/-- The two advisory bits of one command (R204). -/
structure Advisory where
  /-- The two `sampleRate` fields differ. -/
  wrate : Bool
  /-- The two `subchunk2Size` fields differ. -/
  wlen : Bool
  deriving DecidableEq, Repr

/-- The bits of a command that is not M2S, or that ended before M2S's comparison (R205). -/
def Advisory.clear : Advisory := ⟨false, false⟩

/-- `ERR`, bits [3:0] (10_state.md R40). -/
def statusErr (w : Half) : BitVec 4 := w.extractLsb' 0 4
/-- `WRATE`, bit [4]. -/
def statusWrate (w : Half) : Bool := w.getLsbD 4
/-- `WLEN`, bit [5]. -/
def statusWlen (w : Half) : Bool := w.getLsbD 5
/-- The reserved bits [8:6]. -/
def statusReserved (w : Half) : BitVec 3 := w.extractLsb' 6 3
/-- `STICKY[7:1]`, bits [15:9]. -/
def statusSticky (w : Half) : BitVec 7 := w.extractLsb' 9 7

/-- Whether the sticky bit of code k, bit 8 + k, is set (10_state.md R40). -/
def stickyOf (w : Half) (k : Nat) : Bool := w.getLsbD (8 + k)

/-- A STATUS word put together from its fields at their places, reserved bits 0 (10_state.md R40). -/
def statusWord (sticky : BitVec 7) (adv : Advisory) (err : BitVec 4) : Half :=
  (sticky.setWidth 16 <<< 9) ||| ((BitVec.ofBool adv.wlen).setWidth 16 <<< 5) |||
  ((BitVec.ofBool adv.wrate).setWidth 16 <<< 4) ||| err.setWidth 16

/-- The sticky field with only code k's bit set; code k is `STICKY[k]`, k from 1 to 7. -/
def stickyBit (k : Nat) : BitVec 7 := 1#7 <<< (k - 1)

/-- `ERR` after a command: 0 on completion, the code on a fault (R205). -/
def errAfter : Option FaultCode → BitVec 4
  | none => 0
  | some f => BitVec.ofNat 4 f.code

/-- The sticky bits a command sets (R205): its fault's, and bit 12 when an advisory bit is 1. -/
def stickySets (fault : Option FaultCode) (adv : Advisory) : BitVec 7 :=
  (match fault with
    | none => 0
    | some f => stickyBit f.code) |||
  (if adv.wrate || adv.wlen then stickyBit formatMismatchCode else 0)

/-- The STATUS update every command makes as its last act (R205). -/
def statusAfter (old : Half) (fault : Option FaultCode) (adv : Advisory) : Half :=
  statusWord (statusSticky old ||| stickySets fault adv) adv (errAfter fault)

end Sys2Proof.Machine
end

