-- ==== Sys2Proof/Machine/Ops.lean ====
section
/-!
DEFINITION. The named reads and writes of the block's state (00_scope.md R13, 10_state.md R20), the end of a
command (60_exceptions.md R205) and the raising of a fault (R206). There is no return from a fault: "after a
fault the next command simply runs" (R209).
-/
namespace Sys2Proof.Machine

/-- The slot of a number. -/
def State.slot (s : State) (k : SlotNo) : Slot := s.slots[k]

/-- Replace one slot. -/
def State.setSlot (s : State) (k : SlotNo) (v : Slot) : State :=
  { s with slots := s.slots.set k v k.isLt }

/-- Read `HB[k]`. -/
def State.hb (s : State) (k : SlotNo) : List Byte := (s.slot k).hb
/-- Read `PB[k]`. -/
def State.pb (s : State) (k : SlotNo) : List Byte := (s.slot k).pb
/-- Read `HV[k]`. -/
def State.hv (s : State) (k : SlotNo) : Bool := (s.slot k).hv
/-- Read `H[k]`. -/
def State.h (s : State) (k : SlotNo) : WaveHeader := (s.slot k).h
/-- Read `S[k]` with its kind. -/
def State.sb (s : State) (k : SlotNo) : SampleBuffer := (s.slot k).sb

/-- `HB[k] <- q`: the whole buffer is replaced (10_state.md R33). -/
def State.setHb (s : State) (k : SlotNo) (q : List Byte) : State :=
  s.setSlot k { s.slot k with hb := q }

/-- `PB[k] <- q`: the whole buffer is replaced. -/
def State.setPb (s : State) (k : SlotNo) (q : List Byte) : State :=
  s.setSlot k { s.slot k with pb := q }

/-- `H[k] <- g`: the whole header register is written and `HV[k] <- 1` (00_scope.md R13). -/
def State.setH (s : State) (k : SlotNo) (g : WaveHeader) : State :=
  s.setSlot k { s.slot k with hv := true, h := g }

/-- `S[k] <- (kind, q)`: the whole sample buffer is replaced, kind included. -/
def State.setSb (s : State) (k : SlotNo) (b : SampleBuffer) : State :=
  s.setSlot k { s.slot k with sb := b }

/-- Write STATUS. Only the end of a command does (R205). -/
def State.setStatus (s : State) (w : Half) : State := { s with status := w }

/-- STATUS as it is read: bits [8:6] read 0 (10_state.md R40; DEDUCED, log entry 9). -/
def State.readStatus (s : State) : Half := s.status &&& 0xFE3F

/-- One byte of memory: byte `off` of `HB[k]`, none past the buffer's length (20_memory.md R65). -/
def State.readHb (s : State) (k : SlotNo) (off : Nat) : Option Byte := (s.hb k)[off]?

/-- One byte of memory: byte `off` of `PB[k]`, none past the buffer's length (20_memory.md R65). -/
def State.readPb (s : State) (k : SlotNo) (off : Nat) : Option Byte := (s.pb k)[off]?

/-- The end of every command: STATUS takes its new value (R205). -/
def finish (fault : Option FaultCode) (adv : Advisory) (s : State) : Host.Outcome State Fault Refusal :=
  .next (s.setStatus (statusAfter s.status fault adv))

/-- A command completes. -/
def complete (s : State) : Host.Outcome State Fault Refusal := finish none Advisory.clear s

/-- `raise <Fault>` (R206), on the state the command started from: no destination is written, no source is
changed, STATUS records the code, control goes nowhere. -/
def raise (f : FaultCode) (s : State) : Host.Outcome State Fault Refusal :=
  finish (some f) Advisory.clear s

/-- M2S completes with its advisory bits (R204). -/
def completeAdvising (adv : Advisory) (s : State) : Host.Outcome State Fault Refusal :=
  finish none adv s

/-- A fault of M2S after its comparison: the advisory bits are recorded as well (R204, R205). -/
def raiseAdvising (f : FaultCode) (adv : Advisory) (s : State) : Host.Outcome State Fault Refusal :=
  finish (some f) adv s

/-- What Reset leaves (10_state.md R55, 70_reset_and_hazards.md R230): every slot and STATUS at its reset
value. The run's list, its index and its replies are the host's and stay; PB_MAX is fixed. -/
def State.blockReset (s : State) : State :=
  { s with slots := State.reset.slots, status := State.reset.status }

end Sys2Proof.Machine
end

