-- ==== Sys2Proof/Machine/HeaderCodec.lean ====
section
/-!
DEFINITION. 40_header_codec.md: the byte layout of the header (R100), HDEC (R101), HENC (R102) and DeriveHeader
(R106, R107).
-/
namespace Sys2Proof.Machine

/-- The header record of 44 bytes, each field at its offset (R100, R101). Nothing is validated. -/
def unpackHeader (buf : List Byte) : WaveHeader where
  chunkId := tagAt buf 0
  chunkSize := wordAt buf 4
  format := tagAt buf 8
  subchunk1Id := tagAt buf 12
  subchunk1Size := wordAt buf 16
  audioFormat := halfAt buf 20
  numChannels := halfAt buf 22
  sampleRate := wordAt buf 24
  byteRate := wordAt buf 28
  blockAlign := halfAt buf 32
  bitsPerSample := halfAt buf 34
  subchunk2Id := tagAt buf 36
  subchunk2Size := wordAt buf 40

/-- The 44 bytes of a header record, in the same layout (R102). Nothing is validated. -/
def packHeader (h : WaveHeader) : List Byte :=
  h.chunkId.bytes ++ bytesLe h.chunkSize.toNat 4 ++ h.format.bytes ++ h.subchunk1Id.bytes ++
  bytesLe h.subchunk1Size.toNat 4 ++ bytesLe h.audioFormat.toNat 2 ++ bytesLe h.numChannels.toNat 2 ++
  bytesLe h.sampleRate.toNat 4 ++ bytesLe h.byteRate.toNat 4 ++ bytesLe h.blockAlign.toNat 2 ++
  bytesLe h.bitsPerSample.toNat 2 ++ h.subchunk2Id.bytes ++ bytesLe h.subchunk2Size.toNat 4

/-- `DeriveHeader(h, nch, bps, nbytes)` (R106): seven fields copied, six recomputed; `none` is RangeOverflow,
when the derived byteRate does not fit 32 bits (R107). -/
def deriveHeader (h : WaveHeader) (nch bps nbytes : Nat) : Option WaveHeader :=
  let br := h.sampleRate.toNat * nch * bps / 8
  if 4294967295 < br then none
  else some { h with
    numChannels := BitVec.ofNat 16 nch
    bitsPerSample := BitVec.ofNat 16 bps
    blockAlign := BitVec.ofNat 16 (nch * bps / 8)
    byteRate := BitVec.ofNat 32 br
    subchunk2Size := BitVec.ofNat 32 nbytes
    chunkSize := BitVec.ofNat 32 (36 + nbytes) }

/-- The last steps of every transform: derive the header, which may raise RangeOverflow, then write `H[d]`
and `S[d]` (R106; steps 6 and 7 of 42_stereo_to_mono.md R140, 7 and 8 of 43_mono_to_stereo.md R160, 5 and 6
of 44_midside32.md R171 and R172). -/
def deliver (d : SlotNo) (h : WaveHeader) (nch bps nbytes : Nat) (out : SampleBuffer) (adv : Advisory)
    (s : State) : Host.Outcome State Fault Refusal :=
  match deriveHeader h nch bps nbytes with
  | none => raiseAdvising .rangeOverflow adv s
  | some g => completeAdvising adv ((s.setH d g).setSb d out)

/-- HDEC sD, sA (R101). -/
def execHdec (d a : SlotNo) (s : State) : Host.Outcome State Fault Refusal :=
  if (s.hb a).length < 44 then raise .truncatedInput s
  else complete (s.setH d (unpackHeader (s.hb a)))

/-- HENC sD, sA (R102). -/
def execHenc (d a : SlotNo) (s : State) : Host.Outcome State Fault Refusal :=
  if s.hv a = false then raise .invalidOperand s
  else complete (s.setHb d (packHeader (s.h a)))

end Sys2Proof.Machine
end

