-- ==== Sys2Proof/Machine/MidSide.lean ====
section
/-!
DEFINITION. 44_midside32.md: the packed word (R170), MSE (R171), MSD (R172) and the saturating datapath R174
gives for MSD.
-/
namespace Sys2Proof.Machine

/-- The packed word of a left, right pair: `u16(r) × 65536 + u16(l)`, the right channel in bits [31:16]
(R170, R171). -/
def packPair (p : Half × Half) : Word := BitVec.ofNat 32 (p.2.toNat * 65536 + p.1.toNat)

/-- `semiSum`: bits [31:16] of a packed word, signed (R170, R172). -/
def semiSum (w : Word) : Int := s16 (w.extractLsb' 16 16)

/-- `semiDiff`: bits [15:0] of a packed word, signed (R170, R172). -/
def semiDiff (w : Word) : Int := s16 (w.extractLsb' 0 16)

/-- The left, right pair of a packed word (R172): sum and difference, saturated. -/
def unpackWord (w : Word) : Half × Half :=
  (u16 (clamp16 (semiSum w + semiDiff w)), u16 (clamp16 (semiSum w - semiDiff w)))

/-- MSE sD, sA (R171). -/
def execMse (d a : SlotNo) (s : State) : Host.Outcome State Fault Refusal :=
  if s.hv a = false then raise .invalidOperand s
  else if ¬((s.h a).numChannels = 2 ∧ (s.h a).bitsPerSample = 16) then raise .unsupportedFormat s
  else match s.sb a with
    | .i16 q =>
      deliver d (s.h a) 1 32 (4 * (q.length / 2)) (.u32 ((stereoPairs q).map packPair)) Advisory.clear s
    | .none => raise .invalidOperand s
    | .u32 _ => raise .invalidOperand s

/-- MSD sD, sA (R172). -/
def execMsd (d a : SlotNo) (s : State) : Host.Outcome State Fault Refusal :=
  if s.hv a = false then raise .invalidOperand s
  else if ¬((s.h a).numChannels = 1 ∧ (s.h a).bitsPerSample = 32) then raise .unsupportedFormat s
  else match s.sb a with
    | .u32 q =>
      deliver d (s.h a) 2 16 (4 * q.length) (.i16 (interleave (q.map unpackWord))) Advisory.clear s
    | .none => raise .invalidOperand s
    | .i16 _ => raise .invalidOperand s

/-- The saturation of R174 on a 17-bit result: out of range exactly when bits 16 and 15 differ, and then
0x8000 when bit 16 is 1 and 0x7FFF when it is 0; otherwise bits [15:0]. -/
def saturate17 (x : BitVec 17) : Half :=
  if x.getLsbD 16 ≠ x.getLsbD 15 then (if x.getLsbD 16 then 0x8000 else 0x7FFF) else x.truncate 16

end Sys2Proof.Machine
end

