-- ==== Sys2Proof/Machine/MonoToStereo.lean ====
section
/-!
DEFINITION. 43_mono_to_stereo.md: M2S (R160) and its advisory (R161).
-/
namespace Sys2Proof.Machine

/-- The comparison of R160 step 3 (R161): the sample rates, and the payload lengths the headers state. -/
def m2sAdvisory (hl hr : WaveHeader) : Advisory :=
  { wrate := hl.sampleRate ≠ hr.sampleRate
    wlen := hl.subchunk2Size ≠ hr.subchunk2Size }

/-- The header test of R160 step 2, for one input. -/
def isMono16 (h : WaveHeader) : Bool := h.numChannels = 1 && h.bitsPerSample = 16

/-- Steps 5 to 8 of R160, on two I16 sequences. -/
def m2sCombine (d : SlotNo) (hl : WaveHeader) (ql qr : List Half) (adv : Advisory) (s : State) :
    Host.Outcome State Fault Refusal :=
  let n := min ql.length qr.length
  if s.pbMax < 4 * n then raiseAdvising .rangeOverflow adv s
  else deliver d hl 2 16 (4 * n) (.i16 (interleave (ql.zip qr))) adv s

/-- M2S sD, sA, sB (R160): slot A is the left input, slot B the right one. -/
def execM2s (d a b : SlotNo) (s : State) : Host.Outcome State Fault Refusal :=
  if s.hv a = false ∨ s.hv b = false then raise .invalidOperand s
  else if ¬(isMono16 (s.h a) ∧ isMono16 (s.h b)) then raise .unsupportedFormat s
  else
    let adv := m2sAdvisory (s.h a) (s.h b)
    match s.sb a, s.sb b with
    | .i16 ql, .i16 qr => m2sCombine d (s.h a) ql qr adv s
    | _, _ => raiseAdvising .invalidOperand adv s

end Sys2Proof.Machine
end

