-- ==== Sys2Proof/Machine/SampleCodec.lean ====
section
/-!
DEFINITION. 41_sample_codec.md: D16 (R120), E16 (R121), D32 (R122), E32 (R123). The header is never consulted, and
a bad payload length is always MisalignedBuffer (R125).
-/
namespace Sys2Proof.Machine

/-- D16 sD, sA (R120). -/
def execD16 (d a : SlotNo) (s : State) : Host.Outcome State Fault Refusal :=
  if (s.pb a).length % 2 ≠ 0 then raise .misalignedBuffer s
  else complete (s.setSb d (.i16 (samples16 (s.pb a))))

/-- E16 sD, sA (R121). -/
def execE16 (d a : SlotNo) (s : State) : Host.Outcome State Fault Refusal :=
  match s.sb a with
  | .i16 q => complete (s.setPb d (bytes16 q))
  | .none => raise .invalidOperand s
  | .u32 _ => raise .invalidOperand s

/-- D32 sD, sA (R122). -/
def execD32 (d a : SlotNo) (s : State) : Host.Outcome State Fault Refusal :=
  if (s.pb a).length % 4 ≠ 0 then raise .misalignedBuffer s
  else complete (s.setSb d (.u32 (samples32 (s.pb a))))

/-- E32 sD, sA (R123). -/
def execE32 (d a : SlotNo) (s : State) : Host.Outcome State Fault Refusal :=
  match s.sb a with
  | .u32 q => complete (s.setPb d (bytes32 q))
  | .none => raise .invalidOperand s
  | .i16 _ => raise .invalidOperand s

end Sys2Proof.Machine
end

