-- ==== Sys2Proof/Machine/StereoToMono.lean ====
section
/-!
DEFINITION. 42_stereo_to_mono.md: the shared body of S2M (R140), its four modes (R141 to R144), and the adder
datapaths R146 gives for SUM and DIFF.
-/
namespace Sys2Proof.Machine

/-- Mode LEFT: `f(l, r) = l` (R141). -/
def modeLeft (l _r : Int) : Int := l
/-- Mode RIGHT: `f(l, r) = r` (R142). -/
def modeRight (_l r : Int) : Int := r
/-- Mode SUM: `f(l, r) = floor2(l + r)` (R143). -/
def modeSum (l r : Int) : Int := floor2 (l + r)
/-- Mode DIFF: `f(l, r) = floor2(l − r)` (R144). -/
def modeDiff (l r : Int) : Int := floor2 (l - r)

/-- The output sequence of S2M: f of each pair, exact in the integers, kept as its 16-bit pattern. No clamp
is applied (R145). -/
def monoOf (f : Int → Int → Int) (q : List Half) : List Half :=
  (stereoPairs q).map fun p => u16 (f (s16 p.1) (s16 p.2))

/-- `S2M_body(D, A, f)` (R140), its checks in its order. -/
def s2mBody (f : Int → Int → Int) (d a : SlotNo) (s : State) : Host.Outcome State Fault Refusal :=
  if s.hv a = false then raise .invalidOperand s
  else if ¬((s.h a).numChannels = 2 ∧ (s.h a).bitsPerSample = 16) then raise .unsupportedFormat s
  else match s.sb a with
    | .i16 q => deliver d (s.h a) 1 16 (2 * (q.length / 2)) (.i16 (monoOf f q)) Advisory.clear s
    | .none => raise .invalidOperand s
    | .u32 _ => raise .invalidOperand s

/-- S2M.LEFT sD, sA (R141). -/
def execS2mLeft (d a : SlotNo) (s : State) : Host.Outcome State Fault Refusal := s2mBody modeLeft d a s

/-- S2M.RIGHT sD, sA (R142). -/
def execS2mRight (d a : SlotNo) (s : State) : Host.Outcome State Fault Refusal := s2mBody modeRight d a s

/-- S2M.SUM sD, sA (R143). -/
def execS2mSum (d a : SlotNo) (s : State) : Host.Outcome State Fault Refusal := s2mBody modeSum d a s

/-- S2M.DIFF sD, sA (R144). -/
def execS2mDiff (d a : SlotNo) (s : State) : Host.Outcome State Fault Refusal := s2mBody modeDiff d a s

/-- The SUM datapath of R146: a 17-bit adder fed with `sext_17` of both, its output shifted right
arithmetically by one place, the low 16 bits kept. -/
def sumDatapath (l r : Half) : Half := ((sext17 l + sext17 r).sshiftRight 1).truncate 16

/-- The DIFF datapath of R146: the same with a subtractor. -/
def diffDatapath (l r : Half) : Half := ((sext17 l - sext17 r).sshiftRight 1).truncate 16

end Sys2Proof.Machine
end

