-- ==== Sys2Proof/Machine/Dispatch.lean ====
section
/-! DEFINITION. The dispatch: one arm per command of opcode_table.json, each a call of its meaning. -/
namespace Sys2Proof.Machine

def exec (i : Instr) (s : State) : Host.Outcome State Fault Refusal :=
  match i with
  | .hdec d a => Sys2Proof.Machine.execHdec d a s
  | .henc d a => Sys2Proof.Machine.execHenc d a s
  | .d16 d a => Sys2Proof.Machine.execD16 d a s
  | .e16 d a => Sys2Proof.Machine.execE16 d a s
  | .d32 d a => Sys2Proof.Machine.execD32 d a s
  | .e32 d a => Sys2Proof.Machine.execE32 d a s
  | .s2mLeft d a => Sys2Proof.Machine.execS2mLeft d a s
  | .s2mRight d a => Sys2Proof.Machine.execS2mRight d a s
  | .s2mSum d a => Sys2Proof.Machine.execS2mSum d a s
  | .s2mDiff d a => Sys2Proof.Machine.execS2mDiff d a s
  | .m2s d a b => Sys2Proof.Machine.execM2s d a b s
  | .mse d a => Sys2Proof.Machine.execMse d a s
  | .msd d a => Sys2Proof.Machine.execMsd d a s

end Sys2Proof.Machine
end

