-- ==== Sys2Proof/Machine/HostActions.lean ====
section
/-!
DEFINITION. The five host actions of 20_memory.md R70 to R73, and one move of a run: the next action of the list
is done and the index advances by one (00_scope.md R18, 10_state.md R50).
-/
namespace Sys2Proof.Machine

/-- `Reset` (R70, 70_reset_and_hazards.md R230). -/
def hostReset (s : State) : Host.Outcome State Fault Refusal := .next s.blockReset

/-- `HostLoad(s, q)` (R71): the first 44 bytes to `HB`, the rest to `PB`; a longer sequence than 44 + PB_MAX
has no step (93_implementation_defined.md U14). -/
def hostLoad (k : SlotNo) (q : List Byte) (s : State) : Host.Outcome State Fault Refusal :=
  if 44 + s.pbMax < q.length then .refused .loadTooLong
  else .next ((s.setHb k (q.take 44)).setPb k (q.drop 44))

/-- `HostCmd(w)` (R73): the command runs to completion; a reserved word raises IllegalCommand
(30_encoding.md R85). -/
def hostCmd (w : Half) (s : State) : Host.Outcome State Fault Refusal :=
  match decode w with
  | .ok i => exec i s
  | .error _ => raise .illegalCommand s

/-- The value a host action returns is added to the run's replies. -/
def State.reply (s : State) (r : HostReply) : State := { s with replies := s.replies ++ [r] }

/-- `HostStatus()` (R73): returns STATUS, no effect on the block. -/
def hostStatus (s : State) : Host.Outcome State Fault Refusal := .next (s.reply (.status s.readStatus))

/-- `HostStore(s)` (R72): returns `HB[s] ++ PB[s]` whatever they hold, no effect on the block. -/
def hostStore (k : SlotNo) (s : State) : Host.Outcome State Fault Refusal :=
  .next (s.reply (.file (s.hb k ++ s.pb k)))

/-- One host action. -/
def performAction (act : HostAction) (s : State) : Host.Outcome State Fault Refusal :=
  match act with
  | .reset => hostReset s
  | .load k q => hostLoad k q s
  | .cmd w => hostCmd w s
  | .status => hostStatus s
  | .store k => hostStore k s

/-- The next host action of the run, none when the list is exhausted. -/
def nextAction (s : State) : Option HostAction := s.script[s.index]?

/-- "It advances by one after every action, faulting commands included" (10_state.md R50). -/
def State.advance (s : State) : State := { s with index := s.index + 1 }

/-- The index advances when the action was done; a refused action is no step. -/
def advanced : Host.Outcome State Fault Refusal → Host.Outcome State Fault Refusal
  | .next t => .next t.advance
  | .fault r => .fault r
  | .refused r => .refused r

/-- One move of a run. When the list is exhausted the run has ended (00_scope.md R18). -/
def runNext (s : State) : Host.Outcome State Fault Refusal :=
  match nextAction s with
  | none => .fault .runEnded
  | some act => advanced (performAction act s)

end Sys2Proof.Machine
end

