-- ==== Sys2Proof/Machine/Step.lean ====
section
/-! DEFINITION. One step of the machine: one host action of the run (00_scope.md R18, 20_memory.md R66). -/
namespace Sys2Proof.Machine

/-- One step. -/
def step (s : State) : Host.Outcome State Fault Refusal := runNext s

/-- `s` with the command word of `nbits` bits `w` as the host action the next step does, in the place of
whatever action stood there. The rest of the list stays, and so does the index (when it lies in the list or
at its end; past the end it is moved to the end, which is where the next action then is). -/
def State.withFetchWord (s : State) (nbits w : Nat) : State :=
  let before := s.script.take s.index
  { s with
    script := before ++ HostAction.cmd (BitVec.ofNat 16 (w % 2 ^ nbits)) :: s.script.drop (s.index + 1)
    index := before.length }

end Sys2Proof.Machine
end

