-- ==== Sys2Proof/Machine/Assembler.lean ====
section
/-!
DEFINITION. The written form of a command (30_encoding.md R88) and the pseudo-instructions, which stand for fixed
sequences of commands (R89, 20_memory.md R77).
-/
namespace Sys2Proof.Machine

/-- The mnemonic of a command, as opcode_table.json has it. -/
def mnemonicOf : Instr → String
  | .hdec _ _ => "HDEC"
  | .henc _ _ => "HENC"
  | .d16 _ _ => "D16"
  | .e16 _ _ => "E16"
  | .d32 _ _ => "D32"
  | .e32 _ _ => "E32"
  | .s2mLeft _ _ => "S2M.LEFT"
  | .s2mRight _ _ => "S2M.RIGHT"
  | .s2mSum _ _ => "S2M.SUM"
  | .s2mDiff _ _ => "S2M.DIFF"
  | .m2s _ _ _ => "M2S"
  | .mse _ _ => "MSE"
  | .msd _ _ => "MSD"

/-- A slot operand: `s` and one decimal digit (R88). -/
def slotText (k : SlotNo) : String := ["s0", "s1", "s2", "s3"].getD k.val ""

/-- The slot operands of a command, destination first (R88). -/
def operandsOf : Instr → List SlotNo
  | .hdec d a | .henc d a | .d16 d a | .e16 d a | .d32 d a | .e32 d a => [d, a]
  | .s2mLeft d a | .s2mRight d a | .s2mSum d a | .s2mDiff d a => [d, a]
  | .m2s d a b => [d, a, b]
  | .mse d a | .msd d a => [d, a]

/-- The operand list, separated by a comma and a space. -/
def operandText : List SlotNo → String
  | [] => ""
  | [k] => slotText k
  | k :: rest => slotText k ++ ", " ++ operandText rest

/-- The written form of a command: `MNEMONIC sD, sA` or `M2S sD, sA, sB` (R88). -/
def commandText (i : Instr) : String := mnemonicOf i ++ " " ++ operandText (operandsOf i)

/-- The four slot numbers. -/
def allSlots : List SlotNo := [0, 1, 2, 3]

/-- The thirteen commands on given operands. -/
def commandsOn (d a : SlotNo) : List Instr :=
  [.hdec d a, .henc d a, .d16 d a, .e16 d a, .d32 d a, .e32 d a, .s2mLeft d a, .s2mRight d a,
   .s2mSum d a, .s2mDiff d a, .mse d a, .msd d a] ++ allSlots.map (.m2s d a)

/-- The 256 commands (R84). -/
def allCommands : List Instr := allSlots.flatMap fun d => allSlots.flatMap fun a => commandsOn d a

/-- A source line without its comment and the spaces around it: "`;` starts a comment" (R88). DESIGN CHOICE (log
entry 10): other spaces are as in the written form. -/
def stripLine (line : List Char) : List Char :=
  let l := (line.takeWhile (· ≠ ';')).dropWhile (· = ' ')
  (l.reverse.dropWhile (· = ' ')).reverse

/-- The command a source line holds, if it is the written form of one (R88). -/
def assembleLine (line : String) : Option Instr :=
  allCommands.find? fun i => (commandText i).toList = stripLine line.toList

/-- The four modes of S2M (30_encoding.md R83). -/
inductive ChannelMode where
  | left
  | right
  | sum
  | diff
  deriving DecidableEq, Repr

/-- The S2M command of a mode. -/
def s2mOf : ChannelMode → SlotNo → SlotNo → Instr
  | .left => .s2mLeft
  | .right => .s2mRight
  | .sum => .s2mSum
  | .diff => .s2mDiff

/-- The pseudo-instructions of R89. -/
inductive Pseudo where
  | dup (d a : SlotNo)
  | fileS2m (mode : ChannelMode) (d a : SlotNo)
  | fileM2s (d a b : SlotNo)
  | fileMse (d a : SlotNo)
  | fileMsd (d a : SlotNo)
  deriving DecidableEq, Repr

/-- The expansion of a pseudo-instruction (R89). -/
def expandPseudo : Pseudo → List Instr
  | .dup d a => [.m2s d a a]
  | .fileS2m mode d a => [.hdec a a, .d16 a a, s2mOf mode d a, .henc d d, .e16 d d]
  | .fileM2s d a b => [.hdec a a, .d16 a a, .hdec b b, .d16 b b, .m2s d a b, .henc d d, .e16 d d]
  | .fileMse d a => [.hdec a a, .d16 a a, .mse d a, .henc d d, .e32 d d]
  | .fileMsd d a => [.hdec a a, .d32 a a, .msd d a, .henc d d, .e16 d d]

/-- The host actions of a pseudo-instruction: one HostCmd for each command of its expansion (20_memory.md
R70). The host stops the sequence at a fault (70_reset_and_hazards.md R241); the sequence does not stop by
itself. -/
def pseudoActions (p : Pseudo) : List HostAction := (expandPseudo p).map fun i => .cmd (encode i)

end Sys2Proof.Machine
end

