-- ==== Sys2Proof/Safety.lean ====
section
/-!
DEFINITION. What claims are stated in terms of: the legal states, what a command leaves unchanged, the STATUS words
a command leaves, which fault a command raises, the header a transform derives, and what a command reads and
writes.
-/
namespace Sys2Proof.Machine

/-- The canonical form of memory: every buffer within its length bound (10_state.md R28, R29). A buffer is
a byte sequence whose length is part of its value, so equal memories are equal data (DESIGN CHOICE, log
entry 8). -/
def Memory.wf (s : State) : Bool :=
  (List.finRange 4).all fun k => (s.hb k).length ≤ 44 && (s.pb k).length ≤ s.pbMax

/-- The sample buffers are within their capacity (10_state.md R30, R34). -/
def samplesFit (s : State) : Bool :=
  (List.finRange 4).all fun k => (s.sb k).byteSize ≤ s.pbMax

/-- The STATUS words that occur: reserved bits 0 (10_state.md R40); `ERR` never 4 nor 8 to 15 (R41); the sticky
bit of the code in `ERR` set, and sticky bit 12 set beside `WRATE` or `WLEN` (60_exceptions.md R205). -/
def statusLegal (w : Half) : Bool :=
  statusReserved w = 0 && (statusErr w).toNat ≤ 7 && (statusErr w).toNat ≠ 4 &&
  (statusErr w = 0 || stickyOf w (statusErr w).toNat) &&
  (!(statusWrate w || statusWlen w) || stickyOf w 4)

/-- The invariant of the machine. -/
abbrev State.Inv (s : State) : Prop :=
  pbMaxLegal s.pbMax = true ∧ Memory.wf s = true ∧ samplesFit s = true ∧ statusLegal s.status = true ∧
  s.index ≤ s.script.length

/-- STATUS after a completed command other than M2S: `STICKY ## 0b000000000` (60_exceptions.md R205). -/
def doneStatus (old : Half) : Half := old &&& 0xFE00

/-- STATUS after a fault of code k that leaves no advisory (60_exceptions.md R205). -/
def faultStatus (old : Half) (k : Nat) : Half :=
  (old &&& 0xFE00) ||| BitVec.ofNat 16 (2 ^ (8 + k) + k)

/-- STATUS with the two advisory bits added, and sticky bit 12 when either is 1 (60_exceptions.md R205). -/
def withAdvisory (w : Half) (wrate wlen : Bool) : Half :=
  w ||| (if wrate then 0x1010 else 0) ||| (if wlen then 0x1020 else 0)

/-- The command stopped with fault code k and changed nothing but STATUS (60_exceptions.md R206). -/
def faultsWith (i : Instr) (s : State) (k : Nat) : Prop :=
  exec i s = .next (s.setStatus (faultStatus s.status k))

/-- The commands that read a header register or a sample buffer (30_encoding.md R82). -/
def readersOfHeaderOrSamples (d a b : SlotNo) : List Instr :=
  [.henc d a, .e16 d a, .e32 d a, .s2mLeft d a, .s2mRight d a, .s2mSum d a, .s2mDiff d a, .m2s d a b,
   .mse d a, .msd d a]

/-- The code of the first check that fails in a transform of one source (60_exceptions.md R201, in the order of
R207), 0 when none does: the header register, the format, the kind of the buffer, the derived byteRate. -/
def transformFaultCode (s : State) (a : SlotNo) (nch bps : Half) (kind : SampleKind) (rateLimit : Nat) : Nat :=
  if s.hv a = false then 6
  else if (s.h a).numChannels ≠ nch ∨ (s.h a).bitsPerSample ≠ bps then 3
  else if (s.sb a).kind ≠ kind then 6
  else if rateLimit ≤ (s.h a).sampleRate.toNat then 7
  else 0

/-- The number of elements in a sample buffer. -/
def SampleBuffer.count : SampleBuffer → Nat
  | .none => 0
  | .i16 q => q.length
  | .u32 q => q.length

/-- The fault code a command raises, 0 when it completes: the table of 60_exceptions.md R201, in the order of
R207. -/
def faultCodeOf (i : Instr) (s : State) : Nat :=
  match i with
  | .hdec _ a => if (s.hb a).length < 44 then 1 else 0
  | .henc _ a => if s.hv a = false then 6 else 0
  | .d16 _ a => if (s.pb a).length % 2 ≠ 0 then 2 else 0
  | .e16 _ a => if (s.sb a).kind ≠ .i16 then 6 else 0
  | .d32 _ a => if (s.pb a).length % 4 ≠ 0 then 2 else 0
  | .e32 _ a => if (s.sb a).kind ≠ .u32 then 6 else 0
  | .s2mLeft _ a | .s2mRight _ a | .s2mSum _ a | .s2mDiff _ a => transformFaultCode s a 2 16 .i16 (2 ^ 31)
  | .m2s _ a b =>
    if s.hv a = false ∨ s.hv b = false then 6
    else if (s.h a).numChannels ≠ 1 ∨ (s.h a).bitsPerSample ≠ 16 ∨
        (s.h b).numChannels ≠ 1 ∨ (s.h b).bitsPerSample ≠ 16 then 3
    else if (s.sb a).kind ≠ .i16 ∨ (s.sb b).kind ≠ .i16 then 6
    else if s.pbMax < 4 * min (s.sb a).count (s.sb b).count ∨ 2 ^ 30 ≤ (s.h a).sampleRate.toNat then 7
    else 0
  | .mse _ a => transformFaultCode s a 2 16 .i16 (2 ^ 30)
  | .msd _ a => transformFaultCode s a 1 32 .u32 (2 ^ 30)

/-- The same for a command word: a reserved one raises IllegalCommand before any state is read (R207). -/
def wordFaultCode (w : Half) (s : State) : Nat :=
  match decode w with
  | .ok i => faultCodeOf i s
  | .error _ => 5

/-- A sequence of commands issued one after the other with no host action between (30_encoding.md R89). -/
def runCommands : List Instr → State → Host.Outcome State Fault Refusal
  | [], s => .next s
  | i :: rest, s =>
    match exec i s with
    | .next t => runCommands rest t
    | .fault r => .fault r
    | .refused r => .refused r

/-- Everything but the named components and STATUS is as before, memory read byte by byte: `xHb` is the slot
whose `HB` may change, and so on; `none` for a component that no slot may change. -/
def changesOnly (xHb xPb xH xSb : Option SlotNo) (s t : State) : Prop :=
  (∀ k, xHb ≠ some k → ∀ off, t.readHb k off = s.readHb k off) ∧
  (∀ k, xPb ≠ some k → ∀ off, t.readPb k off = s.readPb k off) ∧
  (∀ k, xH ≠ some k → t.hv k = s.hv k ∧ t.h k = s.h k) ∧
  (∀ k, xSb ≠ some k → t.sb k = s.sb k) ∧
  t.pbMax = s.pbMax ∧ t.script = s.script ∧ t.index = s.index ∧ t.replies = s.replies

/-- `g` is what DeriveHeader makes of `h` (40_header_codec.md R106), over the integers: seven fields copied,
six recomputed. -/
def derivedFrom (h g : WaveHeader) (nch bps nbytes : Nat) : Prop :=
  g.chunkId = h.chunkId ∧ g.format = h.format ∧ g.subchunk1Id = h.subchunk1Id ∧
  g.subchunk1Size = h.subchunk1Size ∧ g.audioFormat = h.audioFormat ∧ g.sampleRate = h.sampleRate ∧
  g.subchunk2Id = h.subchunk2Id ∧
  g.numChannels.toNat = nch ∧ g.bitsPerSample.toNat = bps ∧ g.blockAlign.toNat = nch * bps / 8 ∧
  g.byteRate.toNat = h.sampleRate.toNat * nch * bps / 8 ∧ g.subchunk2Size.toNat = nbytes ∧
  g.chunkSize.toNat = 36 + nbytes

/-- The three equations every transform leaves true of its header (40_header_codec.md R108). -/
def derivedFieldsHold (g : WaveHeader) : Prop :=
  g.chunkSize.toNat = 36 + g.subchunk2Size.toNat ∧
  g.byteRate.toNat = g.sampleRate.toNat * g.numChannels.toNat * g.bitsPerSample.toNat / 8 ∧
  g.blockAlign.toNat = g.numChannels.toNat * g.bitsPerSample.toNat / 8

/-- The destination slot of a command. -/
def destOf : Instr → SlotNo
  | .hdec d _ | .henc d _ | .d16 d _ | .e16 d _ | .d32 d _ | .e32 d _ => d
  | .s2mLeft d _ | .s2mRight d _ | .s2mSum d _ | .s2mDiff d _ => d
  | .m2s d _ _ => d
  | .mse d _ | .msd d _ => d

/-- The source slots of a command. -/
def sourcesOf : Instr → List SlotNo
  | .hdec _ a | .henc _ a | .d16 _ a | .e16 _ a | .d32 _ a | .e32 _ a => [a]
  | .s2mLeft _ a | .s2mRight _ a | .s2mSum _ a | .s2mDiff _ a => [a]
  | .m2s _ a b => [a, b]
  | .mse _ a | .msd _ a => [a]

/-- The same command with another destination slot. -/
def withDest : Instr → SlotNo → Instr
  | .hdec _ a, d => .hdec d a
  | .henc _ a, d => .henc d a
  | .d16 _ a, d => .d16 d a
  | .e16 _ a, d => .e16 d a
  | .d32 _ a, d => .d32 d a
  | .e32 _ a, d => .e32 d a
  | .s2mLeft _ a, d => .s2mLeft d a
  | .s2mRight _ a, d => .s2mRight d a
  | .s2mSum _ a, d => .s2mSum d a
  | .s2mDiff _ a, d => .s2mDiff d a
  | .m2s _ a b, d => .m2s d a b
  | .mse _ a, d => .mse d a
  | .msd _ a, d => .msd d a

/-- Whether a command is one of the seven transforms, which write `H` and `S` of their destination
(30_encoding.md R82). -/
def isTransform : Instr → Bool
  | .s2mLeft _ _ | .s2mRight _ _ | .s2mSum _ _ | .s2mDiff _ _ | .m2s _ _ _ | .mse _ _ | .msd _ _ => true
  | .hdec _ _ | .henc _ _ | .d16 _ _ | .e16 _ _ | .d32 _ _ | .e32 _ _ => false

/-- Whether a command is M2S. -/
def isM2s : Instr → Bool
  | .m2s _ _ _ => true
  | .hdec _ _ | .henc _ _ | .d16 _ _ | .e16 _ _ | .d32 _ _ | .e32 _ _ => false
  | .s2mLeft _ _ | .s2mRight _ _ | .s2mSum _ _ | .s2mDiff _ _ | .mse _ _ | .msd _ _ => false

/-- The header register of a slot, as far as a command can tell: nothing while `HV = 0` (10_state.md R24). -/
def headerSeen (s : State) (k : SlotNo) : Option WaveHeader := if s.hv k then some (s.h k) else none

/-- Two states agree on the components a command reads (the "reads" column of 30_encoding.md R82). M2S also
reads the capacity. -/
def agreeOnReads (i : Instr) (s s' : State) : Prop :=
  match i with
  | .hdec _ a => s.hb a = s'.hb a
  | .henc _ a => headerSeen s a = headerSeen s' a
  | .d16 _ a | .d32 _ a => s.pb a = s'.pb a
  | .e16 _ a | .e32 _ a => s.sb a = s'.sb a
  | .s2mLeft _ a | .s2mRight _ a | .s2mSum _ a | .s2mDiff _ a | .mse _ a | .msd _ a =>
      headerSeen s a = headerSeen s' a ∧ s.sb a = s'.sb a
  | .m2s _ a b =>
      headerSeen s a = headerSeen s' a ∧ s.sb a = s'.sb a ∧
      headerSeen s b = headerSeen s' b ∧ s.sb b = s'.sb b ∧ s.pbMax = s'.pbMax

/-- Two states hold the same in the components a command writes into a slot. -/
def agreeOnWrites (i : Instr) (k k' : SlotNo) (t t' : State) : Prop :=
  match i with
  | .hdec _ _ => t.hv k = t'.hv k' ∧ t.h k = t'.h k'
  | .henc _ _ => t.hb k = t'.hb k'
  | .d16 _ _ | .d32 _ _ => t.sb k = t'.sb k'
  | .e16 _ _ | .e32 _ _ => t.pb k = t'.pb k'
  | .s2mLeft _ _ | .s2mRight _ _ | .s2mSum _ _ | .s2mDiff _ _ | .mse _ _ | .msd _ _ | .m2s _ _ _ =>
      t.hv k = t'.hv k' ∧ t.h k = t'.h k' ∧ t.sb k = t'.sb k'

end Sys2Proof.Machine
end

