-- ==== Sys2Proof/Certificates/Slice0/Obligations.lean ====
section
/-!
DEFINITION. The statements for the provers. Each docstring names the rules of spec/ it formalises; OBLIGATIONS.json
lists them. `doneStatus`, `faultStatus` and `withAdvisory` are the STATUS words of 60_exceptions.md R205;
`faultsWith i s k` says that command i stops with fault code k and changes nothing but STATUS; `changesOnly`
is the frame; all are in Safety.lean.
-/
open Sys2Proof Sys2Proof.Machine

/-! ## Encoding (30_encoding.md) -/

/-- R80, R82, R88: one word of each row, written from the encoding, decodes to its command. -/
def Obligations.WrittenWordsDecode : Prop :=
  decode 0x1140 = .ok (.hdec 1 1) ∧ decode 0x2140 = .ok (.henc 1 1) ∧ decode 0x3240 = .ok (.d16 2 1) ∧
  decode 0x4100 = .ok (.e16 1 0) ∧ decode 0x5140 = .ok (.d32 1 1) ∧ decode 0x6140 = .ok (.e32 1 1) ∧
  decode 0x8380 = .ok (.s2mLeft 3 2) ∧ decode 0x8780 = .ok (.s2mRight 3 2) ∧
  decode 0x8900 = .ok (.s2mSum 1 0) ∧ decode 0x8EC0 = .ok (.s2mDiff 2 3) ∧
  decode 0x9060 = .ok (.m2s 0 1 2) ∧ decode 0xA100 = .ok (.mse 1 0) ∧ decode 0xB240 = .ok (.msd 2 1)

/-- R80, R82: decoding the word of a command gives the command back, every slot number included, and that
word meets the must-be-zero checks of R85. -/
def Obligations.DecodeUndoesEncode : Prop :=
  ∀ i : Instr, decode (encode i) = .ok i ∧ wordWellFormed (encode i) = true

/-- R84, R87: no word but its own is decoded to a command, so the decoder and the encoder are inverse to
each other on the command words. -/
def Obligations.OnlyItsOwnWordDecodesToACommand : Prop :=
  ∀ (w : Half) (i : Instr), decode w = .ok i → encode i = w

/-- R84, R85: the words the decoder accepts are exactly the words that some row of the table covers, the row
is the command's own, no two rows cover the same word, and the accepted words are exactly those that pass
the checks of R80. -/
def Obligations.AcceptedWordsAreTheTableRows : Prop :=
  (∀ w : Half, (∃ i, decode w = .ok i) ↔ ∃ r ∈ opcodeRows, r.covers w = true) ∧
  (∀ (w : Half) (i : Instr), decode w = .ok i → rowOf i ∈ opcodeRows ∧ (rowOf i).covers w = true) ∧
  (∀ (w : Half) (r r' : OpcodeRow), r ∈ opcodeRows → r' ∈ opcodeRows → r.covers w = true →
    r'.covers w = true → r = r') ∧
  (∀ w : Half, (∃ i, decode w = .ok i) ↔ wordWellFormed w = true)

/-- R85: which words match no row, and that issuing one raises IllegalCommand: no slot is changed, `ERR` is 5,
sticky bit 13 is set. -/
def Obligations.ReservedWordRaisesIllegalCommand : Prop :=
  (∀ w : Half, (∀ r ∈ opcodeRows, r.covers w = false) ↔
    opcField w ∈ [0x0, 0x7, 0xC, 0xD, 0xE, 0xF] ∨ zeroField w ≠ 0 ∨ (opcField w ≠ 0x8 ∧ modeField w ≠ 0) ∨
    (opcField w ≠ 0x9 ∧ rs2Field w ≠ 0)) ∧
  (∀ (s : State) (w : Half), nextAction s = some (.cmd w) → (∀ r ∈ opcodeRows, r.covers w = false) →
    step s = .next (s.setStatus (faultStatus s.status 5)).advance ∧
    statusErr (faultStatus s.status 5) = 5 ∧ (faultStatus s.status 5).getLsbD 13 = true)

/-- R88: the written form of every command on every slot, letter for letter (the mnemonic in upper case, the
destination first, the slots in decimal digits), is the command's text and assembles to it, and so does the same line
with a comment after `;`; and the example table of R88, each text with its word. (Spaces before the `;` are log
entry 10.) -/
def Obligations.WrittenFormAssembles : Prop :=
  (∀ d a b : SlotNo,
    let digit := fun k : SlotNo => ["0", "1", "2", "3"].getD k.val ""
    let two := " s" ++ digit d ++ ", s" ++ digit a
    ∀ p ∈ [("HDEC" ++ two, Instr.hdec d a), ("HENC" ++ two, .henc d a), ("D16" ++ two, .d16 d a),
        ("E16" ++ two, .e16 d a), ("D32" ++ two, .d32 d a), ("E32" ++ two, .e32 d a),
        ("S2M.LEFT" ++ two, .s2mLeft d a), ("S2M.RIGHT" ++ two, .s2mRight d a),
        ("S2M.SUM" ++ two, .s2mSum d a), ("S2M.DIFF" ++ two, .s2mDiff d a),
        ("M2S" ++ two ++ ", s" ++ digit b, .m2s d a b), ("MSE" ++ two, .mse d a), ("MSD" ++ two, .msd d a)],
      commandText p.2 = p.1 ∧ assembleLine p.1 = some p.2 ∧
      ∀ note : String, assembleLine (p.1 ++ ";" ++ note) = some p.2 ∧
        assembleLine (p.1 ++ " ; " ++ note) = some p.2) ∧
  (∀ p ∈ [("HDEC s0, s0", (0x1000 : Half)), ("HDEC s1, s1", 0x1140), ("HENC s1, s1", 0x2140),
      ("D16 s0, s0", 0x3000), ("E16 s1, s1", 0x4140), ("D32 s1, s1", 0x5140), ("E32 s1, s1", 0x6140),
      ("S2M.LEFT s3, s2", 0x8380), ("S2M.RIGHT s3, s2", 0x8780), ("S2M.SUM s1, s0", 0x8900),
      ("S2M.DIFF s1, s0", 0x8D00), ("M2S s2, s0, s1", 0x9210), ("MSE s1, s0", 0xA100), ("MSD s2, s1", 0xB240)],
    (assembleLine p.1).map encode = some p.2)

/-! ## One step (00_scope.md R18, 10_state.md R50, 20_memory.md R70 to R73) -/

/-- R73, R50: when the next host action is HostCmd with a word that decodes to `i`, the step is `exec i`, and
the index then moves past the action (`advance` adds one to it and changes nothing else). -/
def Obligations.StepRunsTheDecodedCommand : Prop :=
  ∀ (s : State) (w : Half) (i : Instr), nextAction s = some (.cmd w) → decode w = .ok i →
    step s = match exec i s with
      | .next t => .next t.advance
      | .fault r => .fault r
      | .refused r => .refused r

/-- R50: every step moves the index by one, faulting commands included. That the list of host actions is the same
after every step, Reset included, is the model's choice (log entry 2, after R18). -/
def Obligations.StepMovesTheIndexByOne : Prop :=
  ∀ s t : State, step s = .next t → t.index = s.index + 1 ∧ t.script = s.script

/-- R8, R18: no step changes the capacity, and what the host was already given stays (log entries 2 and 5). -/
def Obligations.StepKeepsCapacityAndReplies : Prop :=
  ∀ s t : State, step s = .next t → t.pbMax = s.pbMax ∧ s.replies <+: t.replies

/-- R18, R71, R250: the step is a fault exactly when the list of host actions is exhausted (that this is a fault is
the model's choice, log entry 2); and the step gives no next state, by a fault or by a refusal, exactly there and at a
load of more than 44 + PB_MAX bytes. -/
def Obligations.OnlyTheEndAndAnOverlongLoadStop : Prop :=
  ∀ s : State,
    (∀ r : Fault, step s = .fault r ↔ r = .runEnded ∧ nextAction s = none) ∧
    ((∀ t, step s ≠ .next t) ↔
      nextAction s = none ∨ ∃ k q, nextAction s = some (.load k q) ∧ 44 + s.pbMax < q.length)

/-- R71, R74: the one host action with no step is a load of more than 44 + PB_MAX bytes; every other action
has a defined outcome. -/
def Obligations.OnlyAnOverlongLoadHasNoStep : Prop :=
  ∀ (s : State) (r : Refusal), step s = .refused r ↔
    r = .loadTooLong ∧ ∃ k q, nextAction s = some (.load k q) ∧ 44 + s.pbMax < q.length

/-- R71: HostLoad puts the first 44 bytes in `HB` and the rest in `PB`, whole, and changes nothing else; after a
short file HDEC raises TruncatedInput; a file of more than 44 + PB_MAX bytes has no step. -/
def Obligations.HostLoadSplitsTheFile : Prop :=
  ∀ (s : State) (k : SlotNo) (q : List Byte), nextAction s = some (.load k q) →
    (q.length ≤ 44 + s.pbMax →
      ∃ t, step s = .next t ∧ t.hb k = q.take (min 44 q.length) ∧ t.pb k = q.drop (min 44 q.length) ∧
        t.status = s.status ∧ changesOnly (some k) (some k) none none s { t with index := s.index } ∧
        (q.length < 44 → (t.hb k).length < 44 ∧ t.pb k = [] ∧ ∀ d, faultsWith (.hdec d k) t 1)) ∧
    (44 + s.pbMax < q.length → step s = .refused .loadTooLong)

/-- R72: HostStore returns the header bytes, then the payload bytes, whatever they hold, and changes nothing. -/
def Obligations.HostStoreReturnsTheFile : Prop :=
  ∀ (s : State) (k : SlotNo), nextAction s = some (.store k) →
    step s = .next { s with replies := s.replies ++ [.file (s.hb k ++ s.pb k)], index := s.index + 1 }

/-- R40, R70, R73, R76: HostStatus returns the 16 bits of STATUS, bits [8:6] as 0, and changes nothing. -/
def Obligations.HostStatusReturnsStatus : Prop :=
  ∀ s : State, nextAction s = some .status → ∃ w, step s =
      .next { s with replies := s.replies ++ [.status w], index := s.index + 1 } ∧
    statusReserved w = 0 ∧ statusErr w = statusErr s.status ∧ statusWrate w = statusWrate s.status ∧
    statusWlen w = statusWlen s.status ∧ statusSticky w = statusSticky s.status

/-- R55, R230: after Reset, whatever the state before, all eight byte buffers are empty, all `HV` bits 0, all
`SK` tags NONE, STATUS 0x0000; every use of a slot then is a fault, but D16 and D32, which decode an empty
payload. -/
def Obligations.ResetActionClearsTheBlock : Prop :=
  ∀ s : State, nextAction s = some .reset →
    ∃ t, step s = .next t ∧ t.status = 0 ∧
      (∀ k, t.hb k = [] ∧ t.pb k = [] ∧ t.hv k = false ∧ (t.sb k).kind = .none) ∧
      (∀ d a, faultsWith (.hdec d a) t 1) ∧
      (∀ d a b, ∀ i ∈ readersOfHeaderOrSamples d a b, faultsWith i t 6) ∧
      (∀ d a, exec (.d16 d a) t = .next (t.setSb d (.i16 [])) ∧ exec (.d32 d a) t = .next (t.setSb d (.u32 [])))

/-- R55: the values the spec gives at reset, and that no command reads a header register or a sample buffer there. -/
def Obligations.ResetStateIsTheSpecs : Prop :=
  State.reset.status = 0 ∧
  (∀ k, State.reset.hb k = [] ∧ State.reset.pb k = [] ∧ State.reset.hv k = false ∧
    (State.reset.sb k).kind = .none) ∧
  ∀ d a b, ∀ i ∈ readersOfHeaderOrSamples d a b, faultsWith i State.reset 6

/-- R8: PB_MAX is a multiple of 4 and at most 4294967259, and any such number may be it (log entry 5). -/
def Obligations.CapacityIsAnyLegalNumber : Prop :=
  pbMaxLegal State.reset.pbMax = true ∧ (∀ n, pbMaxLegal (Config.pbMaxOf n) = true) ∧
  ∀ m, pbMaxLegal m = true → ∃ n, Config.pbMaxOf n = m

/-! ## The invariant -/

/-- The invariant holds at reset. -/
def Obligations.ResetMeetsTheInvariant : Prop := State.reset.Inv

/-- R8, R28, R29, R30, R34, R40, R41: every step keeps every buffer within its bound, the reserved bits of STATUS
0, `ERR` a legal code with its sticky bit set, and the index within the list. -/
def Obligations.StepKeepsTheInvariant : Prop :=
  ∀ s t : State, s.Inv → step s = .next t → t.Inv

/-- R24, R30, R42, R230: no action but Reset clears a valid bit, takes a sample buffer back to NONE or clears a
sticky bit. -/
def Obligations.OnlyResetClears : Prop :=
  ∀ s t : State, step s = .next t → nextAction s ≠ some .reset →
    (∀ k, s.hv k = true → t.hv k = true) ∧
    (∀ k, (s.sb k).kind ≠ .none → (t.sb k).kind ≠ .none) ∧
    (∀ n, 9 ≤ n → s.status.getLsbD n = true → t.status.getLsbD n = true)

/-! ## Every command (60_exceptions.md, 00_scope.md R14) -/

/-- R250, R203: every command ends, with a next state, in every state of the machine. -/
def Obligations.EveryCommandEnds : Prop :=
  ∀ (i : Instr) (s : State), ∃ t, exec i s = .next t

/-- R205: the STATUS update, for every command word, reserved ones included. Every word ends; `ERR` is 0 exactly when
none of the checks of R201 fails, that is, on completion, and else the code of the first that fails in the order of
R207 (`wordFaultCode`, Safety.lean, which is written from those two rules and not from `exec`); a fault leaves the
slots as they were. The sticky bits keep their values but for the fault's code and, beside `WRATE` or `WLEN`, bit
12; bits [8:6] are 0; `WRATE` and `WLEN` are M2S's comparison when it was reached and 0 otherwise. -/
def Obligations.StatusUpdateOfEveryCommand : Prop :=
  ∀ (w : Half) (s : State), ∃ t, hostCmd w s = .next t ∧
    (statusErr t.status).toNat = wordFaultCode w s ∧
    (wordFaultCode w s ≠ 0 → t.slots = s.slots) ∧
    statusReserved t.status = 0 ∧
    (statusErr t.status).toNat ∈ [0, 1, 2, 3, 5, 6, 7] ∧
    (∀ k, 1 ≤ k → k ≤ 7 → (stickyOf t.status k = true ↔
      stickyOf s.status k = true ∨ wordFaultCode w s = k ∨
      (k = 4 ∧ (statusWrate t.status = true ∨ statusWlen t.status = true)))) ∧
    (∀ d a b, decode w = .ok (.m2s d a b) →
      s.hv a = true → s.hv b = true → (s.h a).numChannels = 1 → (s.h b).numChannels = 1 →
      (s.h a).bitsPerSample = 16 → (s.h b).bitsPerSample = 16 →
      (statusWrate t.status = true ↔ (s.h a).sampleRate ≠ (s.h b).sampleRate) ∧
      (statusWlen t.status = true ↔ (s.h a).subchunk2Size ≠ (s.h b).subchunk2Size)) ∧
    ((∀ d a b, decode w = .ok (.m2s d a b) →
      ¬(s.hv a = true ∧ s.hv b = true ∧ (s.h a).numChannels = 1 ∧ (s.h b).numChannels = 1 ∧
        (s.h a).bitsPerSample = 16 ∧ (s.h b).bitsPerSample = 16)) →
      statusWrate t.status = false ∧ statusWlen t.status = false)

/-- R206, R205: a command word that faults leaves the state before it, but for STATUS, which takes the code in
`ERR`, its sticky bit and M2S's advisory. -/
def Obligations.FaultChangesNothingButStatus : Prop :=
  ∀ (w : Half) (s t : State), hostCmd w s = .next t → statusErr t.status ≠ 0 →
    t = s.setStatus (withAdvisory (faultStatus s.status (statusErr t.status).toNat) (statusWrate t.status)
      (statusWlen t.status))

/-- R203: a fault leaves the slots as they were, the block takes the next command, whichever it is, and the same
command faults again with the same code. -/
def Obligations.RetryFaultsAgain : Prop :=
  ∀ (w : Half) (s t : State), hostCmd w s = .next t → statusErr t.status ≠ 0 →
    t.slots = s.slots ∧ (∀ v, ∃ u, hostCmd v t = .next u) ∧
    ∃ u, hostCmd w t = .next u ∧ statusErr u.status = statusErr t.status

/-- R210: what a command reports and what it writes depend only on the components it reads. -/
def Obligations.OutcomeDependsOnlyOnWhatIsRead : Prop :=
  ∀ (i : Instr) (s s' t t' : State), agreeOnReads i s s' → exec i s = .next t → exec i s' = .next t' →
    statusErr t.status = statusErr t'.status ∧ statusWrate t.status = statusWrate t'.status ∧
    statusWlen t.status = statusWlen t'.status ∧
    (statusErr t.status = 0 → agreeOnWrites i (destOf i) (destOf i) t t')

/-- R243, R14: the result of a command does not depend on which slot is its destination, a source slot
included. -/
def Obligations.DestinationMayBeASource : Prop :=
  ∀ (i : Instr) (d : SlotNo) (s t t' : State), exec i s = .next t → exec (withDest i d) s = .next t' →
    t.status = t'.status ∧ (statusErr t.status = 0 → agreeOnWrites i (destOf i) d t t')

/-- R76: a command whose destination slot is none of its source slots is idempotent, the sticky bits
included. -/
def Obligations.CommandIsIdempotent : Prop :=
  ∀ (i : Instr) (s t : State), destOf i ∉ sourcesOf i → exec i s = .next t → exec i t = .next t

/-- R76, R243: a stereo to mono conversion in place, issued twice, completes and then faults with
UnsupportedFormat, because the first left a mono header in its source. -/
def Obligations.SumInPlaceIsNotIdempotent : Prop :=
  ∀ (a : SlotNo) (s t : State), exec (.s2mSum a a) s = .next t → statusErr t.status = 0 →
    faultsWith (.s2mSum a a) t 3

/-! ## Header codec (40_header_codec.md) -/

/-- R100, R101: HDEC reads the thirteen fields at their offsets, tags in file order, integers little-endian, and
validates nothing; fewer than 44 bytes is TruncatedInput. -/
def Obligations.HdecReadsTheFields : Prop :=
  ∀ (d a : SlotNo) (s : State),
    (44 ≤ (s.hb a).length → ∃ t, exec (.hdec d a) s = .next t ∧
      t.status = doneStatus s.status ∧ changesOnly none none (some d) none s t ∧ t.hv d = true ∧
      let b := fun n => (s.hb a).getD n 0
      (t.h d).chunkId = ⟨b 0, b 1, b 2, b 3⟩ ∧
      (t.h d).chunkSize.toNat = le32 (b 4) (b 5) (b 6) (b 7) ∧
      (t.h d).format = ⟨b 8, b 9, b 10, b 11⟩ ∧
      (t.h d).subchunk1Id = ⟨b 12, b 13, b 14, b 15⟩ ∧
      (t.h d).subchunk1Size.toNat = le32 (b 16) (b 17) (b 18) (b 19) ∧
      (t.h d).audioFormat.toNat = le16 (b 20) (b 21) ∧
      (t.h d).numChannels.toNat = le16 (b 22) (b 23) ∧
      (t.h d).sampleRate.toNat = le32 (b 24) (b 25) (b 26) (b 27) ∧
      (t.h d).byteRate.toNat = le32 (b 28) (b 29) (b 30) (b 31) ∧
      (t.h d).blockAlign.toNat = le16 (b 32) (b 33) ∧
      (t.h d).bitsPerSample.toNat = le16 (b 34) (b 35) ∧
      (t.h d).subchunk2Id = ⟨b 36, b 37, b 38, b 39⟩ ∧
      (t.h d).subchunk2Size.toNat = le32 (b 40) (b 41) (b 42) (b 43)) ∧
    ((s.hb a).length < 44 → faultsWith (.hdec d a) s 1)

/-- R100, R102: HENC writes exactly these 44 bytes; an invalid header register is InvalidOperand. -/
def Obligations.HencWritesTheBytes : Prop :=
  ∀ (d a : SlotNo) (s : State),
    (s.hv a = true → ∃ t, exec (.henc d a) s = .next t ∧
      t.status = doneStatus s.status ∧ changesOnly (some d) none none none s t ∧
      let h := s.h a
      let byte := fun (v k : Nat) => BitVec.ofNat 8 (v / 256 ^ k % 256)
      t.hb d =
        [h.chunkId.b0, h.chunkId.b1, h.chunkId.b2, h.chunkId.b3,
         byte h.chunkSize.toNat 0, byte h.chunkSize.toNat 1, byte h.chunkSize.toNat 2, byte h.chunkSize.toNat 3,
         h.format.b0, h.format.b1, h.format.b2, h.format.b3,
         h.subchunk1Id.b0, h.subchunk1Id.b1, h.subchunk1Id.b2, h.subchunk1Id.b3,
         byte h.subchunk1Size.toNat 0, byte h.subchunk1Size.toNat 1, byte h.subchunk1Size.toNat 2,
         byte h.subchunk1Size.toNat 3,
         byte h.audioFormat.toNat 0, byte h.audioFormat.toNat 1,
         byte h.numChannels.toNat 0, byte h.numChannels.toNat 1,
         byte h.sampleRate.toNat 0, byte h.sampleRate.toNat 1, byte h.sampleRate.toNat 2,
         byte h.sampleRate.toNat 3,
         byte h.byteRate.toNat 0, byte h.byteRate.toNat 1, byte h.byteRate.toNat 2, byte h.byteRate.toNat 3,
         byte h.blockAlign.toNat 0, byte h.blockAlign.toNat 1,
         byte h.bitsPerSample.toNat 0, byte h.bitsPerSample.toNat 1,
         h.subchunk2Id.b0, h.subchunk2Id.b1, h.subchunk2Id.b2, h.subchunk2Id.b3,
         byte h.subchunk2Size.toNat 0, byte h.subchunk2Size.toNat 1, byte h.subchunk2Size.toNat 2,
         byte h.subchunk2Size.toNat 3]) ∧
    (s.hv a = false → faultsWith (.henc d a) s 6)

/-- R103: HENC then HDEC gives the header register back, for every register value; HDEC then HENC gives the 44
bytes back, for every 44 bytes. -/
def Obligations.HeaderRoundTrips : Prop :=
  ∀ (a m d : SlotNo) (s : State),
    (s.hv a = true → ∃ u v, exec (.henc m a) s = .next u ∧ exec (.hdec d m) u = .next v ∧
      v.hv d = true ∧ v.h d = s.h a) ∧
    ((s.hb a).length = 44 → ∃ u v, exec (.hdec m a) s = .next u ∧ exec (.henc d m) u = .next v ∧
      v.hb d = s.hb a)

/-- R101: HDEC changes the header register of its destination, its valid bit and STATUS, nothing else. -/
def Obligations.HdecFrame : Prop :=
  ∀ (d a : SlotNo) (s t : State), exec (.hdec d a) s = .next t → changesOnly none none (some d) none s t

/-- R102: HENC changes the header byte buffer of its destination and STATUS, nothing else. -/
def Obligations.HencFrame : Prop :=
  ∀ (d a : SlotNo) (s t : State), exec (.henc d a) s = .next t → changesOnly (some d) none none none s t

/-! ## Sample codec (41_sample_codec.md) -/

/-- R120: D16 reads two bytes an element, low byte first, as two's complement, whatever the header says; an odd
length is MisalignedBuffer. -/
def Obligations.D16ReadsSignedSamples : Prop :=
  ∀ (d a : SlotNo) (s : State),
    ((s.pb a).length % 2 = 0 → ∃ t q, exec (.d16 d a) s = .next t ∧
      t.status = doneStatus s.status ∧ changesOnly none none none (some d) s t ∧
      t.sb d = .i16 q ∧ 2 * q.length = (s.pb a).length ∧
      ∀ n, n < q.length →
        let u := le16 ((s.pb a).getD (2 * n) 0) ((s.pb a).getD (2 * n + 1) 0)
        s16 (q.getD n 0) = if 32768 ≤ u then (u : Int) - 65536 else u) ∧
    ((s.pb a).length % 2 ≠ 0 → faultsWith (.d16 d a) s 2)

/-- R121: E16 writes two bytes an element, low byte first, and nothing after them; a buffer not of kind I16 is
InvalidOperand. -/
def Obligations.E16WritesSignedSamples : Prop :=
  ∀ (d a : SlotNo) (s : State),
    (∀ q, s.sb a = .i16 q → ∃ t, exec (.e16 d a) s = .next t ∧
      t.status = doneStatus s.status ∧ changesOnly none (some d) none none s t ∧
      (t.pb d).length = 2 * q.length ∧
      ∀ n, n < q.length →
        (((t.pb d).getD (2 * n) 0).toNat : Int) = s16 (q.getD n 0) % 65536 % 256 ∧
        (((t.pb d).getD (2 * n + 1) 0).toNat : Int) = s16 (q.getD n 0) % 65536 / 256) ∧
    ((s.sb a).kind ≠ .i16 → faultsWith (.e16 d a) s 6)

/-- R122: D32 reads four bytes an element, least significant first, unsigned; a length not divisible by 4 is
MisalignedBuffer. -/
def Obligations.D32ReadsUnsignedWords : Prop :=
  ∀ (d a : SlotNo) (s : State),
    ((s.pb a).length % 4 = 0 → ∃ t q, exec (.d32 d a) s = .next t ∧
      t.status = doneStatus s.status ∧ changesOnly none none none (some d) s t ∧
      t.sb d = .u32 q ∧ 4 * q.length = (s.pb a).length ∧
      ∀ n, n < q.length → (q.getD n 0).toNat =
        ((s.pb a).getD (4 * n) 0).toNat + 256 * ((s.pb a).getD (4 * n + 1) 0).toNat +
        65536 * ((s.pb a).getD (4 * n + 2) 0).toNat + 16777216 * ((s.pb a).getD (4 * n + 3) 0).toNat) ∧
    ((s.pb a).length % 4 ≠ 0 → faultsWith (.d32 d a) s 2)

/-- R123: E32 writes four bytes an element, least significant first; a buffer not of kind U32 is
InvalidOperand. -/
def Obligations.E32WritesUnsignedWords : Prop :=
  ∀ (d a : SlotNo) (s : State),
    (∀ q, s.sb a = .u32 q → ∃ t, exec (.e32 d a) s = .next t ∧
      t.status = doneStatus s.status ∧ changesOnly none (some d) none none s t ∧
      (t.pb d).length = 4 * q.length ∧
      ∀ n k, n < q.length → k < 4 →
        ((t.pb d).getD (4 * n + k) 0).toNat = (q.getD n 0).toNat / 256 ^ k % 256) ∧
    ((s.sb a).kind ≠ .u32 → faultsWith (.e32 d a) s 6)

/-- R124: the round trips of both codecs, both ways; crossing the kinds gives the same bytes, since both ways
round give the payload back. -/
def Obligations.SampleRoundTrips : Prop :=
  ∀ (a m d : SlotNo) (s : State),
    (∀ q, s.sb a = .i16 q → ∃ u v, exec (.e16 m a) s = .next u ∧ exec (.d16 d m) u = .next v ∧
      v.sb d = .i16 q) ∧
    (∀ q, s.sb a = .u32 q → ∃ u v, exec (.e32 m a) s = .next u ∧ exec (.d32 d m) u = .next v ∧
      v.sb d = .u32 q) ∧
    ((s.pb a).length % 2 = 0 → ∃ u v, exec (.d16 m a) s = .next u ∧ exec (.e16 d m) u = .next v ∧
      v.pb d = s.pb a) ∧
    ((s.pb a).length % 4 = 0 → ∃ u v, exec (.d32 m a) s = .next u ∧ exec (.e32 d m) u = .next v ∧
      v.pb d = s.pb a)

/-- R62: of four bytes, D16's first element is bits [15:0] of D32's element and its second is bits [31:16]. -/
def Obligations.BothDecodersSeeTheSameBytes : Prop :=
  ∀ (d a : SlotNo) (s : State), (s.pb a).length % 4 = 0 →
    ∃ t u q v, exec (.d16 d a) s = .next t ∧ exec (.d32 d a) s = .next u ∧
      t.sb d = .i16 q ∧ u.sb d = .u32 v ∧ q.length = 2 * v.length ∧
      ∀ n, n < v.length → q.getD (2 * n) 0 = (v.getD n 0).extractLsb' 0 16 ∧
        q.getD (2 * n + 1) 0 = (v.getD n 0).extractLsb' 16 16

/-- R120, R122: D16 and D32 change the sample buffer of their destination and STATUS, nothing else. -/
def Obligations.SampleDecodersFrame : Prop :=
  ∀ (d a : SlotNo) (s t : State), exec (.d16 d a) s = .next t ∨ exec (.d32 d a) s = .next t →
    changesOnly none none none (some d) s t

/-- R121, R123: E16 and E32 change the payload byte buffer of their destination and STATUS, nothing else. -/
def Obligations.SampleEncodersFrame : Prop :=
  ∀ (d a : SlotNo) (s t : State), exec (.e16 d a) s = .next t ∨ exec (.e32 d a) s = .next t →
    changesOnly none (some d) none none s t

/-! ## Stereo to mono (42_stereo_to_mono.md) -/

/-- R140, R141, R142: LEFT keeps the even elements, RIGHT the odd ones, an unmatched last element dropped; the
header is derived for one channel of 16 bits. -/
def Obligations.S2mKeepsOneChannel : Prop :=
  ∀ (d a : SlotNo) (s : State) (q : List Half), s.Inv → s.hv a = true → (s.h a).numChannels = 2 →
    (s.h a).bitsPerSample = 16 → s.sb a = .i16 q → (s.h a).sampleRate.toNat < 2 ^ 31 →
    (∃ t o, exec (.s2mLeft d a) s = .next t ∧ t.status = doneStatus s.status ∧ t.hv d = true ∧
      derivedFrom (s.h a) (t.h d) 1 16 (2 * (q.length / 2)) ∧ t.sb d = .i16 o ∧ o.length = q.length / 2 ∧
      ∀ n, n < o.length → o.getD n 0 = q.getD (2 * n) 0) ∧
    (∃ t o, exec (.s2mRight d a) s = .next t ∧ t.status = doneStatus s.status ∧ t.hv d = true ∧
      derivedFrom (s.h a) (t.h d) 1 16 (2 * (q.length / 2)) ∧ t.sb d = .i16 o ∧ o.length = q.length / 2 ∧
      ∀ n, n < o.length → o.getD n 0 = q.getD (2 * n + 1) 0)

/-- R140, R143, R144, R145: SUM and DIFF give floor((l + r) / 2) and floor((l − r) / 2) of each pair, exactly; no
clamp is needed, since the element, read as signed, is that integer. -/
def Obligations.S2mHalvesSumAndDifference : Prop :=
  ∀ (d a : SlotNo) (s : State) (q : List Half), s.Inv → s.hv a = true → (s.h a).numChannels = 2 →
    (s.h a).bitsPerSample = 16 → s.sb a = .i16 q → (s.h a).sampleRate.toNat < 2 ^ 31 →
    (∃ t o, exec (.s2mSum d a) s = .next t ∧ t.status = doneStatus s.status ∧ t.hv d = true ∧
      derivedFrom (s.h a) (t.h d) 1 16 (2 * (q.length / 2)) ∧ t.sb d = .i16 o ∧ o.length = q.length / 2 ∧
      ∀ n, n < o.length →
        s16 (o.getD n 0) = (s16 (q.getD (2 * n) 0) + s16 (q.getD (2 * n + 1) 0)).fdiv 2) ∧
    (∃ t o, exec (.s2mDiff d a) s = .next t ∧ t.status = doneStatus s.status ∧ t.hv d = true ∧
      derivedFrom (s.h a) (t.h d) 1 16 (2 * (q.length / 2)) ∧ t.sb d = .i16 o ∧ o.length = q.length / 2 ∧
      ∀ n, n < o.length →
        s16 (o.getD n 0) = (s16 (q.getD (2 * n) 0) - s16 (q.getD (2 * n + 1) 0)).fdiv 2)

/-- R140, R107, R207: where the four S2M commands fault, the checks in their order. -/
def Obligations.S2mFaultsInOrder : Prop :=
  ∀ (d a : SlotNo) (s : State) (i : Instr),
    i ∈ [.s2mLeft d a, .s2mRight d a, .s2mSum d a, .s2mDiff d a] →
    (s.hv a = false → faultsWith i s 6) ∧
    (s.hv a = true → ¬((s.h a).numChannels = 2 ∧ (s.h a).bitsPerSample = 16) → faultsWith i s 3) ∧
    (s.hv a = true → (s.h a).numChannels = 2 → (s.h a).bitsPerSample = 16 → (s.sb a).kind ≠ .i16 →
      faultsWith i s 6) ∧
    (s.hv a = true → (s.h a).numChannels = 2 → (s.h a).bitsPerSample = 16 → (s.sb a).kind = .i16 →
      2 ^ 31 ≤ (s.h a).sampleRate.toNat → faultsWith i s 7)

/-- R146: the 17-bit adder and subtractor, shifted right arithmetically by one place, low 16 bits kept, give
exactly floor2 of the sum and of the difference. -/
def Obligations.HalvingDatapathIsExact : Prop :=
  ∀ l r : Half, s16 (sumDatapath l r) = floor2 (s16 l + s16 r) ∧
    s16 (diffDatapath l r) = floor2 (s16 l - s16 r)

/-- R12: `floor2(x)` is the greatest integer q with 2q ≤ x, and the formula for languages whose division
truncates gives the same. -/
def Obligations.FloorHalvingIsTheFloor : Prop :=
  ∀ x : Int, 2 * floor2 x ≤ x ∧ (∀ q, 2 * q ≤ x → q ≤ floor2 x) ∧ floorDivTruncating x 2 = floor2 x

/-! ## Mono to stereo (43_mono_to_stereo.md) -/

/-- R160, R161: M2S interleaves the two inputs up to the shorter length, derives its header from the left one, and
completes with `WRATE` and `WLEN` telling which header fields differed. -/
def Obligations.M2sInterleaves : Prop :=
  ∀ (d a b : SlotNo) (s : State) (ql qr : List Half), s.Inv → s.hv a = true → s.hv b = true →
    (s.h a).numChannels = 1 → (s.h b).numChannels = 1 → (s.h a).bitsPerSample = 16 →
    (s.h b).bitsPerSample = 16 → s.sb a = .i16 ql → s.sb b = .i16 qr →
    4 * min ql.length qr.length ≤ s.pbMax → (s.h a).sampleRate.toNat < 2 ^ 30 →
    ∃ t o, exec (.m2s d a b) s = .next t ∧
      t.status = withAdvisory (doneStatus s.status) ((s.h a).sampleRate ≠ (s.h b).sampleRate)
        ((s.h a).subchunk2Size ≠ (s.h b).subchunk2Size) ∧
      t.hv d = true ∧ derivedFrom (s.h a) (t.h d) 2 16 (4 * min ql.length qr.length) ∧
      t.sb d = .i16 o ∧ o.length = 2 * min ql.length qr.length ∧
      ∀ n, n < min ql.length qr.length →
        o.getD (2 * n) 0 = ql.getD n 0 ∧ o.getD (2 * n + 1) 0 = qr.getD n 0

/-- R160, R107, R207: where M2S faults, the checks in their order; a fault after the comparison records the
advisory bits too. -/
def Obligations.M2sFaultsInOrder : Prop :=
  ∀ (d a b : SlotNo) (s : State),
    let formats := (s.h a).numChannels = 1 ∧ (s.h b).numChannels = 1 ∧ (s.h a).bitsPerSample = 16 ∧
      (s.h b).bitsPerSample = 16
    let wrate : Bool := (s.h a).sampleRate ≠ (s.h b).sampleRate
    let wlen : Bool := (s.h a).subchunk2Size ≠ (s.h b).subchunk2Size
    (s.hv a = false ∨ s.hv b = false → faultsWith (.m2s d a b) s 6) ∧
    (s.hv a = true → s.hv b = true → ¬formats → faultsWith (.m2s d a b) s 3) ∧
    (s.hv a = true → s.hv b = true → formats → (s.sb a).kind ≠ .i16 ∨ (s.sb b).kind ≠ .i16 →
      exec (.m2s d a b) s = .next (s.setStatus (withAdvisory (faultStatus s.status 6) wrate wlen))) ∧
    (∀ ql qr, s.hv a = true → s.hv b = true → formats → s.sb a = .i16 ql → s.sb b = .i16 qr →
      s.pbMax < 4 * min ql.length qr.length ∨ 2 ^ 30 ≤ (s.h a).sampleRate.toNat →
      exec (.m2s d a b) s = .next (s.setStatus (withAdvisory (faultStatus s.status 7) wrate wlen)))

/-- R162: M2S of a slot with itself (DUP) copies each sample to both channels, and leaves no advisory. -/
def Obligations.DupCopiesToBothChannels : Prop :=
  ∀ (d a : SlotNo) (s t : State), runCommands (expandPseudo (.dup d a)) s = .next t →
    statusWrate t.status = false ∧ statusWlen t.status = false ∧
    (statusErr t.status = 0 → ∃ q o, s.sb a = .i16 q ∧ t.sb d = .i16 o ∧ o.length = 2 * q.length ∧
      ∀ n, n < q.length → o.getD (2 * n) 0 = q.getD n 0 ∧ o.getD (2 * n + 1) 0 = q.getD n 0)

/-- R163: after M2S, LEFT recovers the left input and RIGHT the right one, up to the shorter length; whole, for
inputs of one length. -/
def Obligations.ChannelsRoundTrip : Prop :=
  ∀ (m a b d : SlotNo) (s : State) (ql qr : List Half), s.Inv → s.hv a = true → s.hv b = true →
    (s.h a).numChannels = 1 → (s.h b).numChannels = 1 → (s.h a).bitsPerSample = 16 →
    (s.h b).bitsPerSample = 16 → s.sb a = .i16 ql → s.sb b = .i16 qr →
    4 * min ql.length qr.length ≤ s.pbMax → (s.h a).sampleRate.toNat < 2 ^ 30 →
    ∃ t u v, exec (.m2s m a b) s = .next t ∧ exec (.s2mLeft d m) t = .next u ∧
      exec (.s2mRight d m) t = .next v ∧
      u.sb d = .i16 (ql.take (min ql.length qr.length)) ∧
      v.sb d = .i16 (qr.take (min ql.length qr.length)) ∧
      derivedFrom (s.h a) (u.h d) 1 16 (2 * min ql.length qr.length) ∧
      derivedFrom (s.h a) (v.h d) 1 16 (2 * min ql.length qr.length) ∧
      (ql.length = qr.length → u.sb d = s.sb a ∧ v.sb d = s.sb b)

/-! ## Packed 32-bit (44_midside32.md) -/

/-- R170, R171: MSE packs each pair, the right channel's pattern in bits [31:16], the left one's in bits [15:0]. -/
def Obligations.MsePacksPairs : Prop :=
  ∀ (d a : SlotNo) (s : State) (q : List Half), s.Inv → s.hv a = true → (s.h a).numChannels = 2 →
    (s.h a).bitsPerSample = 16 → s.sb a = .i16 q → (s.h a).sampleRate.toNat < 2 ^ 30 →
    ∃ t o, exec (.mse d a) s = .next t ∧ t.status = doneStatus s.status ∧ t.hv d = true ∧
      derivedFrom (s.h a) (t.h d) 1 32 (4 * (q.length / 2)) ∧ t.sb d = .u32 o ∧ o.length = q.length / 2 ∧
      ∀ n, n < o.length → (o.getD n 0).extractLsb' 16 16 = q.getD (2 * n + 1) 0 ∧
        (o.getD n 0).extractLsb' 0 16 = q.getD (2 * n) 0

/-- R170, R172: MSD gives of each word the sum and the difference of its signed halves, saturated to 16 bits; its
upper half is semiSum, its lower half semiDiff. -/
def Obligations.MsdUnpacksWithSaturation : Prop :=
  ∀ (d a : SlotNo) (s : State) (q : List Word), s.Inv → s.hv a = true → (s.h a).numChannels = 1 →
    (s.h a).bitsPerSample = 32 → s.sb a = .u32 q → (s.h a).sampleRate.toNat < 2 ^ 30 →
    ∃ t o, exec (.msd d a) s = .next t ∧ t.status = doneStatus s.status ∧ t.hv d = true ∧
      derivedFrom (s.h a) (t.h d) 2 16 (4 * q.length) ∧ t.sb d = .i16 o ∧ o.length = 2 * q.length ∧
      ∀ n, n < q.length →
        let sum := ((q.getD n 0).extractLsb' 16 16).toInt
        let diff := ((q.getD n 0).extractLsb' 0 16).toInt
        s16 (o.getD (2 * n) 0) = max (-32768) (min 32767 (sum + diff)) ∧
        s16 (o.getD (2 * n + 1) 0) = max (-32768) (min 32767 (sum - diff))

/-- R171, R172, R107, R207: where MSE and MSD fault, the checks in their order. -/
def Obligations.PackedFaultsInOrder : Prop :=
  ∀ (d a : SlotNo) (s : State),
    ((s.hv a = false → faultsWith (.mse d a) s 6) ∧
     (s.hv a = true → ¬((s.h a).numChannels = 2 ∧ (s.h a).bitsPerSample = 16) → faultsWith (.mse d a) s 3) ∧
     (s.hv a = true → (s.h a).numChannels = 2 → (s.h a).bitsPerSample = 16 → (s.sb a).kind ≠ .i16 →
       faultsWith (.mse d a) s 6) ∧
     (s.hv a = true → (s.h a).numChannels = 2 → (s.h a).bitsPerSample = 16 → (s.sb a).kind = .i16 →
       2 ^ 30 ≤ (s.h a).sampleRate.toNat → faultsWith (.mse d a) s 7)) ∧
    ((s.hv a = false → faultsWith (.msd d a) s 6) ∧
     (s.hv a = true → ¬((s.h a).numChannels = 1 ∧ (s.h a).bitsPerSample = 32) → faultsWith (.msd d a) s 3) ∧
     (s.hv a = true → (s.h a).numChannels = 1 → (s.h a).bitsPerSample = 32 → (s.sb a).kind ≠ .u32 →
       faultsWith (.msd d a) s 6) ∧
     (s.hv a = true → (s.h a).numChannels = 1 → (s.h a).bitsPerSample = 32 → (s.sb a).kind = .u32 →
       2 ^ 30 ≤ (s.h a).sampleRate.toNat → faultsWith (.msd d a) s 7))

/-- R173: what MSD makes of MSE's result: of a pair (l, r), (clamp16(r + l), clamp16(r − l)), while the halves
MSD reads are exactly the patterns MSE wrote. -/
def Obligations.MsdAfterMseIsNotTheIdentity : Prop :=
  ∀ (m a d : SlotNo) (s : State) (q : List Half), s.Inv → s.hv a = true → (s.h a).numChannels = 2 →
    (s.h a).bitsPerSample = 16 → s.sb a = .i16 q → (s.h a).sampleRate.toNat < 2 ^ 30 →
    ∃ t u v o, exec (.mse m a) s = .next t ∧ exec (.msd d m) t = .next u ∧ t.sb m = .u32 v ∧
      u.sb d = .i16 o ∧ v.length = q.length / 2 ∧ o.length = 2 * (q.length / 2) ∧
      derivedFrom (s.h a) (t.h m) 1 32 (4 * (q.length / 2)) ∧
      derivedFrom (s.h a) (u.h d) 2 16 (4 * (q.length / 2)) ∧
      ∀ n, n < v.length →
        let l := s16 (q.getD (2 * n) 0)
        let r := s16 (q.getD (2 * n + 1) 0)
        semiSum (v.getD n 0) = r ∧ semiDiff (v.getD n 0) = l ∧
        s16 (o.getD (2 * n) 0) = clamp16 (r + l) ∧ s16 (o.getD (2 * n + 1) 0) = clamp16 (r - l) ∧
        ((o.getD (2 * n) 0 = q.getD (2 * n) 0 ∧ o.getD (2 * n + 1) 0 = q.getD (2 * n + 1) 0) ↔
          l = 0 ∧ r = 0)

/-- R171 corner case (d), R62: MSE's result, encoded with E32, is byte for byte the first 4n bytes that E16 makes of
the stereo buffer. -/
def Obligations.PackedPayloadIsTheStereoPayload : Prop :=
  ∀ (m a d : SlotNo) (s : State) (q : List Half), s.hv a = true → (s.h a).numChannels = 2 →
    (s.h a).bitsPerSample = 16 → s.sb a = .i16 q → (s.h a).sampleRate.toNat < 2 ^ 30 →
    ∃ t u v, exec (.mse m a) s = .next t ∧ exec (.e32 d m) t = .next u ∧ exec (.e16 d a) s = .next v ∧
      u.pb d = (v.pb d).take (4 * (q.length / 2))

/-- R174: the 17-bit adder and subtractor with the saturation on bits 16 and 15 give exactly clamp16 of the sum and
of the difference. -/
def Obligations.SaturatingDatapathIsExact : Prop :=
  ∀ p m : Half, s16 (saturate17 (sext17 p + sext17 m)) = clamp16 (s16 p + s16 m) ∧
    s16 (saturate17 (sext17 p - sext17 m)) = clamp16 (s16 p - s16 m)

/-! ## All transforms -/

/-- R108: whenever a transform completes, the three equations hold of its header over the integers, and
`subchunk2Size` is the byte length of the sample buffer beside it. -/
def Obligations.DerivedFieldsHoldAfterTransform : Prop :=
  ∀ (i : Instr) (s t : State), isTransform i = true → s.Inv → exec i s = .next t → statusErr t.status = 0 →
    derivedFieldsHold (t.h (destOf i)) ∧
    (t.h (destOf i)).subchunk2Size.toNat = (t.sb (destOf i)).byteSize

/-- R140, R160, R171, R172, R243: the seven transforms change the header register and the sample buffer of their
destination and STATUS, nothing else. -/
def Obligations.TransformsFrame : Prop :=
  ∀ (i : Instr) (s t : State),
    (∃ d a b, i ∈ [.s2mLeft d a, .s2mRight d a, .s2mSum d a, .s2mDiff d a, .mse d a, .msd d a, .m2s d a b]) →
    exec i s = .next t → changesOnly none none (some (destOf i)) (some (destOf i)) s t

/-- R89, R77: the whole stereo to mono conversion of a loaded file, in each of the four modes. Every command of the
sequence completes, and the file in the destination slot has the 44 header bytes of the derived header and two bytes
for each pair: the left sample, the right one, the floored half sum or the floored half difference. -/
def Obligations.FileConversionToMono : Prop :=
  ∀ (mode : ChannelMode) (d a : SlotNo) (s : State), s.Inv → (s.hb a).length = 44 → (s.pb a).length % 2 = 0 →
    (unpackHeader (s.hb a)).numChannels = 2 → (unpackHeader (s.hb a)).bitsPerSample = 16 →
    (unpackHeader (s.hb a)).sampleRate.toNat < 2 ^ 31 →
    ∃ t, runCommands (expandPseudo (.fileS2m mode d a)) s = .next t ∧ t.status = doneStatus s.status ∧
      (t.hb d).length = 44 ∧
      derivedFrom (unpackHeader (s.hb a)) (unpackHeader (t.hb d)) 1 16 (2 * ((s.pb a).length / 4)) ∧
      (t.pb d).length = 2 * ((s.pb a).length / 4) ∧
      ∀ n, n < (s.pb a).length / 4 →
        let l := s16 (halfAt (s.pb a) (4 * n))
        let r := s16 (halfAt (s.pb a) (4 * n + 2))
        s16 (halfAt (t.pb d) (2 * n)) =
          match mode with
          | .left => l
          | .right => r
          | .sum => floor2 (l + r)
          | .diff => floor2 (l - r)
end

