-- ==== Sys2Proof/Laws/Assembler.lean ====
section
/-!
SUPPORT. The assembler (30_encoding.md R88): the characters of a command's text, that no two commands share a text,
what reading a line gives, and that a comment does not matter.
-/
namespace Sys2Proof.Machine

/-- The digit of a slot number. -/
def slotDigit (k : SlotNo) : Char := ['0', '1', '2', '3'].getD k.val '0'

theorem slotDigit_injective : ∀ k j : SlotNo, slotDigit k = slotDigit j → k = j := by decide

@[simp] theorem slotText_toList (k : SlotNo) : (slotText k).toList = ['s', slotDigit k] := by
  revert k
  decide

/-- The characters of the operands of a two-operand command. -/
theorem operandText_two (d a : SlotNo) :
    (operandText [d, a]).toList = ['s', slotDigit d, ',', ' ', 's', slotDigit a] := by
  simp [operandText]

/-- The characters of the operands of M2S. -/
theorem operandText_three (d a b : SlotNo) : (operandText [d, a, b]).toList =
    ['s', slotDigit d, ',', ' ', 's', slotDigit a, ',', ' ', 's', slotDigit b] := by
  simp [operandText]

theorem commandText_toList (i : Instr) : (commandText i).toList =
    (mnemonicOf i).toList ++ ' ' :: (operandText (operandsOf i)).toList := by
  simp [commandText]

/-- No two commands share a text. -/
theorem commandText_injective {i j : Instr} (h : (commandText i).toList = (commandText j).toList) : i = j := by
  rw [commandText_toList, commandText_toList] at h
  cases i <;> cases j <;>
    simp [mnemonicOf, operandsOf, operandText_two, operandText_three] at h <;>
    simp [slotDigit_injective _ _ h.1] <;>
    first
      | exact slotDigit_injective _ _ h.2
      | exact ⟨slotDigit_injective _ _ h.2.1, slotDigit_injective _ _ h.2.2⟩

theorem mem_allCommands (i : Instr) : i ∈ allCommands := by
  have hs : ∀ k : SlotNo, k ∈ allSlots := by decide
  cases i <;> simp [allCommands, commandsOn, hs]

/-- A line whose characters, stripped, are a command's text holds that command. -/
theorem assembleLine_eq {line : String} {i : Instr} (h : stripLine line.toList = (commandText i).toList) :
    assembleLine line = some i := by
  unfold assembleLine
  rw [h]
  cases hf : allCommands.find? fun j => (commandText j).toList = (commandText i).toList with
  | none =>
    rw [List.find?_eq_none] at hf
    simpa using hf i (mem_allCommands i)
  | some j =>
    have := List.find?_some hf
    exact congrArg some (commandText_injective (by simpa using this))

/-- What follows the first `;` does not matter. -/
theorem stripLine_comment (l note : List Char) (h : ';' ∉ l) : stripLine (l ++ ';' :: note) = stripLine l := by
  have hk : l.takeWhile (· ≠ ';') = l := by
    rw [List.takeWhile_eq_self_iff]
    intro c hc
    have : c ≠ ';' := fun e => h (e ▸ hc)
    simpa using this
  have hn : (l ++ ';' :: note).takeWhile (· ≠ ';') = l := by
    rw [List.takeWhile_append, hk]
    simp
  simp only [stripLine, hk, hn]

end Sys2Proof.Machine
end

