-- ==== Sys2Proof/Laws/PerInstr.lean ====
section
/-!
SUPPORT. The family RowMatch: the command word of an instruction is covered by its own row of 30_encoding.md R84
and meets the must-be-zero checks of R80 and R85.
-/
namespace Sys2Proof.Laws.RowMatch

abbrev Statement (i : Instr) : Prop :=
  (rowOf i).covers (encode i) = true ∧ rowOf i ∈ opcodeRows ∧ wordWellFormed (encode i) = true

theorem hdec (d a : SlotNo) : Statement (.hdec d a) := by
  revert d a
  decide
theorem henc (d a : SlotNo) : Statement (.henc d a) := by
  revert d a
  decide
theorem d16 (d a : SlotNo) : Statement (.d16 d a) := by
  revert d a
  decide
theorem e16 (d a : SlotNo) : Statement (.e16 d a) := by
  revert d a
  decide
theorem d32 (d a : SlotNo) : Statement (.d32 d a) := by
  revert d a
  decide
theorem e32 (d a : SlotNo) : Statement (.e32 d a) := by
  revert d a
  decide
theorem s2mLeft (d a : SlotNo) : Statement (.s2mLeft d a) := by
  revert d a
  decide
theorem s2mRight (d a : SlotNo) : Statement (.s2mRight d a) := by
  revert d a
  decide
theorem s2mSum (d a : SlotNo) : Statement (.s2mSum d a) := by
  revert d a
  decide
theorem s2mDiff (d a : SlotNo) : Statement (.s2mDiff d a) := by
  revert d a
  decide
theorem m2s (d a b : SlotNo) : Statement (.m2s d a b) := by
  revert d a b
  decide
theorem mse (d a : SlotNo) : Statement (.mse d a) := by
  revert d a
  decide
theorem msd (d a : SlotNo) : Statement (.msd d a) := by
  revert d a
  decide

end Sys2Proof.Laws.RowMatch
end

