-- ==== Sys2Proof/Laws/Decode.lean ====
section
/-!
SUPPORT. The fields of a command word (30_encoding.md R80) as numbers, and the word put together from them.
-/
namespace Sys2Proof

theorem opcField_toNat (w : Half) : (opcField w).toNat = w.toNat / 4096 % 16 := by
  simp [opcField, Nat.shiftRight_eq_div_pow]
theorem modeField_toNat (w : Half) : (modeField w).toNat = w.toNat / 1024 % 4 := by
  simp [modeField, Nat.shiftRight_eq_div_pow]
theorem rdField_toNat (w : Half) : (rdField w).toNat = w.toNat / 256 % 4 := by
  simp [rdField, Nat.shiftRight_eq_div_pow]
theorem rs1Field_toNat (w : Half) : (rs1Field w).toNat = w.toNat / 64 % 4 := by
  simp [rs1Field, Nat.shiftRight_eq_div_pow]
theorem rs2Field_toNat (w : Half) : (rs2Field w).toNat = w.toNat / 16 % 4 := by
  simp [rs2Field, Nat.shiftRight_eq_div_pow]
theorem zeroField_toNat (w : Half) : (zeroField w).toNat = w.toNat % 16 := by
  simp [zeroField]

/-- A command word is its six fields side by side (R80). -/
theorem toNat_eq_fields (w : Half) : w.toNat = (opcField w).toNat * 4096 + (modeField w).toNat * 1024 +
    (rdField w).toNat * 256 + (rs1Field w).toNat * 64 + (rs2Field w).toNat * 16 + (zeroField w).toNat := by
  rw [opcField_toNat, modeField_toNat, rdField_toNat, rs1Field_toNat, rs2Field_toNat, zeroField_toNat]
  have := w.isLt
  omega

end Sys2Proof
end

