-- ==== Sys2Proof/Laws/Flags.lean ====
section
/-!
SUPPORT. What the STATUS update leaves in each field (60_exceptions.md R205), and the words a command leaves in
the terms claims use.
-/
namespace Sys2Proof.Machine

/-- Two STATUS words with the same sixteen bits are the same word. -/
theorem half_ext {x y : Half} (h : ∀ i < 16, x.getLsbD i = y.getLsbD i) : x = y :=
  BitVec.eq_of_getLsbD_eq h

/-- STATUS after a command that completed with no advisory (R205). -/
theorem statusAfter_done (old : Half) : statusAfter old none Advisory.clear = doneStatus old := by
  apply half_ext
  intro i hi
  interval_cases i <;>
    simp [statusAfter, statusWord, stickySets, errAfter, Advisory.clear, doneStatus, statusSticky]

/-- STATUS after a fault with no advisory (R205). -/
theorem statusAfter_fault (old : Half) (f : FaultCode) :
    statusAfter old (some f) Advisory.clear = faultStatus old f.code := by
  apply half_ext
  intro i hi
  cases f <;> interval_cases i <;>
    simp [statusAfter, statusWord, stickySets, errAfter, Advisory.clear, faultStatus, statusSticky,
      FaultCode.code, stickyBit]

/-- The advisory bits are added to what the command leaves without them (R204, R205). -/
theorem statusAfter_withAdvisory (old : Half) (fault : Option FaultCode) (adv : Advisory) :
    statusAfter old fault adv = withAdvisory (statusAfter old fault Advisory.clear) adv.wrate adv.wlen := by
  obtain ⟨wr, wl⟩ := adv
  simp only [statusAfter, stickySets]
  generalize errAfter fault = e
  generalize (match fault with | none => (0 : BitVec 7) | some f => stickyBit f.code) = x
  apply half_ext
  intro i hi
  cases wr <;> cases wl <;> interval_cases i <;>
    simp [statusWord, Advisory.clear, withAdvisory, stickyBit, formatMismatchCode]

/-- STATUS after a command that completed, advisory bits included (R205). -/
theorem statusAfter_advised (old : Half) (adv : Advisory) :
    statusAfter old none adv = withAdvisory (doneStatus old) adv.wrate adv.wlen := by
  rw [statusAfter_withAdvisory, statusAfter_done]

/-- STATUS after a fault, advisory bits included (R205). -/
theorem statusAfter_advisedFault (old : Half) (f : FaultCode) (adv : Advisory) :
    statusAfter old (some f) adv = withAdvisory (faultStatus old f.code) adv.wrate adv.wlen := by
  rw [statusAfter_withAdvisory, statusAfter_fault]

@[simp] theorem statusErr_statusAfter (old : Half) (fault : Option FaultCode) (adv : Advisory) :
    statusErr (statusAfter old fault adv) = errAfter fault := by
  apply BitVec.eq_of_getLsbD_eq
  intro i hi
  interval_cases i <;> simp [statusErr, statusAfter, statusWord]

@[simp] theorem statusWrate_statusAfter (old : Half) (fault : Option FaultCode) (adv : Advisory) :
    statusWrate (statusAfter old fault adv) = adv.wrate := by
  simp [statusWrate, statusAfter, statusWord]

@[simp] theorem statusWlen_statusAfter (old : Half) (fault : Option FaultCode) (adv : Advisory) :
    statusWlen (statusAfter old fault adv) = adv.wlen := by
  simp [statusWlen, statusAfter, statusWord]

@[simp] theorem statusReserved_statusAfter (old : Half) (fault : Option FaultCode) (adv : Advisory) :
    statusReserved (statusAfter old fault adv) = 0 := by
  apply BitVec.eq_of_getLsbD_eq
  intro i hi
  interval_cases i <;> simp [statusReserved, statusAfter, statusWord]

@[simp] theorem statusSticky_statusAfter (old : Half) (fault : Option FaultCode) (adv : Advisory) :
    statusSticky (statusAfter old fault adv) = statusSticky old ||| stickySets fault adv := by
  apply BitVec.eq_of_getLsbD_eq
  intro i hi
  have h : (statusSticky (statusAfter old fault adv)).getLsbD i =
      (statusSticky old ||| stickySets fault adv).getLsbD i := by
    generalize hx : (statusSticky old ||| stickySets fault adv) = x
    simp only [statusAfter, hx]
    interval_cases i <;> simp [statusSticky, statusWord]
  exact h

/-- `STICKY[k]` is bit k − 1 of the sticky field. -/
theorem stickyOf_eq (w : Half) (k : Nat) (h1 : 1 ≤ k) (h7 : k ≤ 7) :
    stickyOf w k = (statusSticky w).getLsbD (k - 1) := by
  interval_cases k <;> simp [stickyOf, statusSticky]

/-- R205 for one sticky bit: it keeps its value, and is set by the fault of its code, and bit 12 by an
advisory bit. -/
theorem stickyOf_statusAfter (old : Half) (fault : Option FaultCode) (adv : Advisory) (k : Nat)
    (h1 : 1 ≤ k) (h7 : k ≤ 7) :
    stickyOf (statusAfter old fault adv) k =
      (stickyOf old k || fault.any (fun f => f.code = k) || (k = 4 && (adv.wrate || adv.wlen))) := by
  rw [stickyOf_eq _ _ h1 h7, stickyOf_eq _ _ h1 h7, statusSticky_statusAfter, BitVec.getLsbD_or]
  rw [Bool.or_assoc]
  congr 1
  obtain ⟨wr, wl⟩ := adv
  rcases fault with _ | f
  · interval_cases k <;> cases wr <;> cases wl <;> decide
  · interval_cases k <;> cases f <;> cases wr <;> cases wl <;> decide

/-- Every STATUS word a command leaves is legal (10_state.md R40, R41). -/
theorem statusLegal_statusAfter (old : Half) (fault : Option FaultCode) (adv : Advisory) :
    statusLegal (statusAfter old fault adv) = true := by
  have h4 := stickyOf_statusAfter old fault adv 4 (by omega) (by omega)
  rcases fault with _ | f
  · cases hw : adv.wrate <;> cases hl : adv.wlen <;> simp_all [statusLegal, errAfter]
  · have hf := stickyOf_statusAfter old (some f) adv f.code (by cases f <;> decide) (by cases f <;> decide)
    cases f <;> cases hw : adv.wrate <;> cases hl : adv.wlen <;>
      simp_all [statusLegal, errAfter, FaultCode.code]

end Sys2Proof.Machine
end

