-- ==== Sys2Proof/Laws/Operands.lean ====
section
/-!
SUPPORT. The laws of the operand forms: lengths, element by element what they hold, and which undo which.
-/
namespace Sys2Proof.Machine

/-! Little-endian integers (00_scope.md R12, 20_memory.md R60). -/

@[simp] theorem bytesLe_length (v n : Nat) : (bytesLe v n).length = n := by
  induction n generalizing v with
  | zero => rfl
  | succ n ih => simp [bytesLe, ih]

/-- Reading back what `bytes_le` stored gives the value modulo its width. -/
theorem leNat_bytesLe (v n : Nat) : leNat (bytesLe v n) = v % 256 ^ n := by
  induction n generalizing v with
  | zero => simp [bytesLe, leNat, Nat.mod_one]
  | succ n ih =>
    have h : v % 256 ^ (n + 1) = v % 256 + 256 * (v / 256 % 256 ^ n) := by
      rw [Nat.pow_succ, Nat.mul_comm, Nat.mod_mul]
    simp [bytesLe, leNat, ih, h]

/-- MemRead of what MemWrite stored (00_scope.md R13). -/
theorem memRead_memWrite (buf : List Byte) (off n v : Nat) (h : off + n ≤ buf.length) :
    memRead (memWrite buf off n v) off n = v % 256 ^ n := by
  have hlen : (buf.take off).length = off := by simp; omega
  rw [memRead, memWrite, List.append_assoc, List.drop_append_of_le_length (by omega), List.drop_of_length_le (by omega)]
  simp [leNat_bytesLe]

/-- MemWrite keeps the length of the buffer. -/
theorem memWrite_length (buf : List Byte) (off n v : Nat) (h : off + n ≤ buf.length) :
    (memWrite buf off n v).length = buf.length := by
  simp [memWrite]
  omega

theorem bytesLe_half (p : Half) :
    bytesLe p.toNat 2 = [p.extractLsb' 0 8, p.extractLsb' 8 8] := by
  have h0 : BitVec.ofNat 8 p.toNat = p.extractLsb' 0 8 := by
    apply BitVec.eq_of_toNat_eq; simp
  have h1 : BitVec.ofNat 8 (p.toNat / 256) = p.extractLsb' 8 8 := by
    apply BitVec.eq_of_toNat_eq; simp [Nat.shiftRight_eq_div_pow]
  simp [bytesLe, h0, h1]

theorem bytesLe_word (w : Word) :
    bytesLe w.toNat 4 = [w.extractLsb' 0 8, w.extractLsb' 8 8, w.extractLsb' 16 8, w.extractLsb' 24 8] := by
  have h0 : BitVec.ofNat 8 w.toNat = w.extractLsb' 0 8 := by
    apply BitVec.eq_of_toNat_eq; simp
  have h1 : BitVec.ofNat 8 (w.toNat / 256) = w.extractLsb' 8 8 := by
    apply BitVec.eq_of_toNat_eq; simp [Nat.shiftRight_eq_div_pow]
  have h2 : BitVec.ofNat 8 (w.toNat / 256 / 256) = w.extractLsb' 16 8 := by
    apply BitVec.eq_of_toNat_eq; simp [Nat.shiftRight_eq_div_pow, Nat.div_div_eq_div_mul]
  have h3 : BitVec.ofNat 8 (w.toNat / 256 / 256 / 256) = w.extractLsb' 24 8 := by
    apply BitVec.eq_of_toNat_eq; simp [Nat.shiftRight_eq_div_pow, Nat.div_div_eq_div_mul]
  simp [bytesLe, h0, h1, h2, h3]

/-- The bytes of a 16-bit pattern, read back. -/
theorem le16_bytes (p : Half) : BitVec.ofNat 16 (le16 (p.extractLsb' 0 8) (p.extractLsb' 8 8)) = p := by
  have := leNat_bytesLe p.toNat 2
  rw [bytesLe_half] at this
  apply BitVec.eq_of_toNat_eq
  simp [leNat, le16] at this ⊢
  omega

/-- The bytes of a 32-bit word, read back. -/
theorem le32_bytes (w : Word) :
    BitVec.ofNat 32 (le32 (w.extractLsb' 0 8) (w.extractLsb' 8 8) (w.extractLsb' 16 8) (w.extractLsb' 24 8)) = w := by
  have := leNat_bytesLe w.toNat 4
  rw [bytesLe_word] at this
  apply BitVec.eq_of_toNat_eq
  simp [leNat, le32] at this ⊢
  omega

/-- Two bytes, made a pattern and stored again, are the same two bytes. -/
theorem bytesLe_le16 (b0 b1 : Byte) : bytesLe (BitVec.ofNat 16 (le16 b0 b1)).toNat 2 = [b0, b1] := by
  have h0 := b0.isLt
  have h1 := b1.isLt
  simp only [bytesLe, le16, BitVec.toNat_ofNat]
  congr 1
  · apply BitVec.eq_of_toNat_eq; simp; omega
  · congr 1
    apply BitVec.eq_of_toNat_eq; simp; omega

/-- Four bytes, made a word and stored again, are the same four bytes. -/
theorem bytesLe_le32 (b0 b1 b2 b3 : Byte) :
    bytesLe (BitVec.ofNat 32 (le32 b0 b1 b2 b3)).toNat 4 = [b0, b1, b2, b3] := by
  have h0 := b0.isLt
  have h1 := b1.isLt
  have h2 := b2.isLt
  have h3 := b3.isLt
  simp only [bytesLe, le32, BitVec.toNat_ofNat]
  congr 1
  · apply BitVec.eq_of_toNat_eq; simp; omega
  · congr 1
    · apply BitVec.eq_of_toNat_eq; simp; omega
    · congr 1
      · apply BitVec.eq_of_toNat_eq; simp; omega
      · congr 1
        apply BitVec.eq_of_toNat_eq; simp; omega

/-! Stereo pairs and interleaving (10_state.md R32). -/

@[simp] theorem stereoPairs_length {α : Type} (q : List α) : (stereoPairs q).length = q.length / 2 := by
  induction q using stereoPairs.induct with
  | case1 l r rest ih => simp [stereoPairs, ih]; omega
  | case2 x => simp [stereoPairs]
  | case3 => simp [stereoPairs]

/-- Pair i is elements 2i and 2i + 1. -/
theorem stereoPairs_getElem? {α : Type} (q : List α) (i : Nat) (h : 2 * i + 1 < q.length) :
    (stereoPairs q)[i]? = some (q[2 * i], q[2 * i + 1]) := by
  induction q using stereoPairs.induct generalizing i with
  | case1 l r rest ih =>
    rcases i with _ | i
    · rfl
    · have := ih i (by simp at h; omega)
      simpa [stereoPairs, Nat.mul_add] using this
  | case2 x => simp at h
  | case3 => simp at h

@[simp] theorem interleave_length {α : Type} (ps : List (α × α)) : (interleave ps).length = 2 * ps.length := by
  induction ps with
  | nil => rfl
  | cons p rest ih => simp [interleave, ih]; omega

/-- Element 2i of an interleaved buffer is the left of pair i. -/
theorem interleave_left {α : Type} (ps : List (α × α)) (i : Nat) :
    (interleave ps)[2 * i]? = ps[i]?.map Prod.fst := by
  induction ps generalizing i with
  | nil => rfl
  | cons p rest ih =>
    rcases i with _ | i
    · rfl
    · simpa [interleave, Nat.mul_add] using ih i

/-- Element 2i + 1 of an interleaved buffer is the right of pair i. -/
theorem interleave_right {α : Type} (ps : List (α × α)) (i : Nat) :
    (interleave ps)[2 * i + 1]? = ps[i]?.map Prod.snd := by
  induction ps generalizing i with
  | nil => rfl
  | cons p rest ih =>
    rcases i with _ | i
    · rfl
    · simpa [interleave, Nat.mul_add] using ih i

/-- Deinterleaving undoes interleaving. -/
@[simp] theorem stereoPairs_interleave {α : Type} (ps : List (α × α)) : stereoPairs (interleave ps) = ps := by
  induction ps with
  | nil => rfl
  | cons p rest ih => simp [interleave, stereoPairs, ih]

/-! The sample codec (41_sample_codec.md R120 to R124). -/

@[simp] theorem samples16_length (buf : List Byte) : (samples16 buf).length = buf.length / 2 := by
  induction buf using samples16.induct with
  | case1 b0 b1 rest ih => simp [samples16, ih]; omega
  | case2 x => simp [samples16]
  | case3 => simp [samples16]

/-- Element i of a decoded payload is bytes 2i and 2i + 1, low byte first (R120). -/
theorem samples16_getElem? (buf : List Byte) (i : Nat) (h : 2 * i + 1 < buf.length) :
    (samples16 buf)[i]? = some (BitVec.ofNat 16 (le16 buf[2 * i] buf[2 * i + 1])) := by
  induction buf using samples16.induct generalizing i with
  | case1 b0 b1 rest ih =>
    rcases i with _ | i
    · rfl
    · have := ih i (by simp at h; omega)
      simpa [samples16, Nat.mul_add] using this
  | case2 x => simp at h
  | case3 => simp at h

@[simp] theorem bytes16_length (q : List Half) : (bytes16 q).length = 2 * q.length := by
  induction q with
  | nil => rfl
  | cons p rest ih => simp [bytes16, ih]; omega

/-- Bytes 2i and 2i + 1 of an encoded buffer are the low and the high byte of element i (R121). -/
theorem bytes16_getElem? (q : List Half) (i : Nat) (h : i < q.length) :
    (bytes16 q)[2 * i]? = some (q[i].extractLsb' 0 8) ∧
    (bytes16 q)[2 * i + 1]? = some (q[i].extractLsb' 8 8) := by
  induction q generalizing i with
  | nil => simp at h
  | cons p rest ih =>
    rcases i with _ | i
    · simp [bytes16, bytesLe_half]
    · simpa [bytes16, bytesLe_half, Nat.mul_add] using ih i (by simpa using h)

/-- Decoding undoes encoding (R124). -/
@[simp] theorem samples16_bytes16 (q : List Half) : samples16 (bytes16 q) = q := by
  induction q with
  | nil => rfl
  | cons p rest ih => simp [bytes16, bytesLe_half, samples16, ih, le16_bytes]

/-- Encoding undoes decoding on an even length (R124). -/
theorem bytes16_samples16 (buf : List Byte) (h : buf.length % 2 = 0) : bytes16 (samples16 buf) = buf := by
  induction buf using samples16.induct with
  | case1 b0 b1 rest ih =>
    rw [samples16, bytes16, bytesLe_le16, ih (by simp at h; omega)]
    rfl
  | case2 x => simp at h
  | case3 => rfl

@[simp] theorem samples32_length (buf : List Byte) : (samples32 buf).length = buf.length / 4 := by
  induction buf using samples32.induct with
  | case1 b0 b1 b2 b3 rest ih => simp [samples32, ih]; omega
  | case2 buf h =>
    match buf, h with
    | [], _ => rfl
    | [_], _ => simp [samples32]
    | [_, _], _ => simp [samples32]
    | [_, _, _], _ => simp [samples32]
    | b0 :: b1 :: b2 :: b3 :: rest, h => exact absurd rfl (h b0 b1 b2 b3 rest)

/-- Element i of a decoded payload is bytes 4i to 4i + 3, least significant first (R122). -/
theorem samples32_getElem? (buf : List Byte) (i : Nat) (h : 4 * i + 3 < buf.length) :
    (samples32 buf)[i]? =
      some (BitVec.ofNat 32 (le32 buf[4 * i] buf[4 * i + 1] buf[4 * i + 2] buf[4 * i + 3])) := by
  induction buf using samples32.induct generalizing i with
  | case1 b0 b1 b2 b3 rest ih =>
    rcases i with _ | i
    · rfl
    · have := ih i (by simp at h; omega)
      simpa [samples32, Nat.mul_add] using this
  | case2 buf hb =>
    match buf, hb with
    | [], _ => simp at h
    | [_], _ => simp at h
    | [_, _], _ => simp at h
    | [_, _, _], _ => simp at h
    | b0 :: b1 :: b2 :: b3 :: rest, hb => exact absurd rfl (hb b0 b1 b2 b3 rest)

@[simp] theorem bytes32_length (q : List Word) : (bytes32 q).length = 4 * q.length := by
  induction q with
  | nil => rfl
  | cons p rest ih => simp [bytes32, ih]; omega

/-- Bytes 4i to 4i + 3 of an encoded buffer are the bytes of element i (R123). -/
theorem bytes32_getElem? (q : List Word) (i : Nat) (h : i < q.length) :
    (bytes32 q)[4 * i]? = some (q[i].extractLsb' 0 8) ∧
    (bytes32 q)[4 * i + 1]? = some (q[i].extractLsb' 8 8) ∧
    (bytes32 q)[4 * i + 2]? = some (q[i].extractLsb' 16 8) ∧
    (bytes32 q)[4 * i + 3]? = some (q[i].extractLsb' 24 8) := by
  induction q generalizing i with
  | nil => simp at h
  | cons p rest ih =>
    rcases i with _ | i
    · simp [bytes32, bytesLe_word]
    · simpa [bytes32, bytesLe_word, Nat.mul_add] using ih i (by simpa using h)

/-- Decoding undoes encoding (R124). -/
@[simp] theorem samples32_bytes32 (q : List Word) : samples32 (bytes32 q) = q := by
  induction q with
  | nil => rfl
  | cons p rest ih => simp [bytes32, bytesLe_word, samples32, ih, le32_bytes]

/-- Encoding undoes decoding on a length divisible by 4 (R124). -/
theorem bytes32_samples32 (buf : List Byte) (h : buf.length % 4 = 0) : bytes32 (samples32 buf) = buf := by
  induction buf using samples32.induct with
  | case1 b0 b1 b2 b3 rest ih =>
    rw [samples32, bytes32, bytesLe_le32, ih (by simp at h; omega)]
    rfl
  | case2 buf hb =>
    match buf, hb with
    | [], _ => rfl
    | [_], _ => simp at h
    | [_, _], _ => simp at h
    | [_, _, _], _ => simp at h
    | b0 :: b1 :: b2 :: b3 :: rest, hb => exact absurd rfl (hb b0 b1 b2 b3 rest)

/-! The numbers (00_scope.md R12, 42_stereo_to_mono.md R145, 44_midside32.md R174). -/

/-- The sign rule of R12: a pattern of 32768 or more is read as itself minus 65536. -/
theorem s16_eq (p : Half) : s16 p = if 32768 ≤ p.toNat then (p.toNat : Int) - 65536 else p.toNat := by
  have := p.isLt
  rw [s16, BitVec.toInt]
  by_cases h : 32768 ≤ p.toNat
  · rw [if_pos h, if_neg (by omega)]
    rfl
  · rw [if_neg h, if_pos (by omega)]

/-- The pattern of a signed value is the value modulo 65536 (R12). -/
theorem s16_emod (p : Half) : s16 p % 65536 = p.toNat := by
  have := p.isLt
  rw [s16_eq]
  split <;> omega

theorem s16_range (p : Half) : -32768 ≤ s16 p ∧ s16 p ≤ 32767 := by
  have h1 := BitVec.toInt_lt (x := p)
  have h2 := BitVec.le_toInt (x := p)
  simp [s16] at *
  omega

/-- `s16(u16(v)) = v` in the signed 16-bit range (R12). -/
theorem s16_u16 (v : Int) (h1 : -32768 ≤ v) (h2 : v ≤ 32767) : s16 (u16 v) = v := by
  rw [s16, u16, BitVec.toInt_ofInt]
  exact Int.bmod_eq_of_le (by omega) (by omega)

/-- `u16(s16(u)) = u` (R12). -/
@[simp] theorem u16_s16 (p : Half) : u16 (s16 p) = p := by simp [u16, s16]

theorem clamp16_eq (x : Int) : clamp16 x = max (-32768) (min 32767 x) := by
  unfold clamp16
  split <;> [skip; split] <;> omega

theorem clamp16_range (x : Int) : -32768 ≤ clamp16 x ∧ clamp16 x ≤ 32767 := by
  unfold clamp16
  split <;> [skip; split] <;> omega

/-- SUM stays in range (R145). -/
theorem modeSum_range (l r : Half) :
    -32768 ≤ modeSum (s16 l) (s16 r) ∧ modeSum (s16 l) (s16 r) ≤ 32767 := by
  have hl := s16_range l
  have hr := s16_range r
  simp only [modeSum, floor2]
  omega

/-- DIFF stays in range (R145). -/
theorem modeDiff_range (l r : Half) :
    -32768 ≤ modeDiff (s16 l) (s16 r) ∧ modeDiff (s16 l) (s16 r) ≤ 32767 := by
  have hl := s16_range l
  have hr := s16_range r
  simp only [modeDiff, floor2]
  omega

@[simp] theorem monoOf_length (f : Int → Int → Int) (q : List Half) : (monoOf f q).length = q.length / 2 := by
  simp [monoOf]

/-- Element i of S2M's output is f of elements 2i and 2i + 1 (R140). -/
theorem monoOf_getElem? (f : Int → Int → Int) (q : List Half) (i : Nat) (h : 2 * i + 1 < q.length) :
    (monoOf f q)[i]? = some (u16 (f (s16 q[2 * i]) (s16 q[2 * i + 1]))) := by
  simp [monoOf, stereoPairs_getElem? q i h]

/-- The upper half of a packed word is the right channel (44_midside32.md R170). -/
@[simp] theorem packPair_high (p : Half × Half) : (packPair p).extractLsb' 16 16 = p.2 := by
  have h1 := p.1.isLt
  have h2 := p.2.isLt
  apply BitVec.eq_of_toNat_eq
  simp [packPair, Nat.shiftRight_eq_div_pow]
  omega

/-- The lower half of a packed word is the left channel (44_midside32.md R170). -/
@[simp] theorem packPair_low (p : Half × Half) : (packPair p).extractLsb' 0 16 = p.1 := by
  have h1 := p.1.isLt
  have h2 := p.2.isLt
  apply BitVec.eq_of_toNat_eq
  simp [packPair]
  omega

/-! The header codec (40_header_codec.md R100 to R103). -/

@[simp] theorem packHeader_length (h : WaveHeader) : (packHeader h).length = 44 := by
  simp [packHeader, Tag.bytes]

/-- Unpacking undoes packing (R103). -/
@[simp] theorem unpackHeader_packHeader (h : WaveHeader) : unpackHeader (packHeader h) = h := by
  obtain ⟨⟨_, _, _, _⟩, cs, ⟨_, _, _, _⟩, ⟨_, _, _, _⟩, s1, af, nc, sr, br, ba, bp, ⟨_, _, _, _⟩, s2⟩ := h
  simp only [unpackHeader, packHeader, Tag.bytes, bytesLe_half, bytesLe_word, wordAt, halfAt, memRead, tagAt,
    List.cons_append, List.nil_append, List.drop_succ_cons, List.drop_zero, List.take_succ_cons,
    List.take_zero, leNat, List.getD_cons_succ, List.getD_cons_zero, WaveHeader.mk.injEq, Nat.mul_zero,
    Nat.add_zero, true_and]
  have w := le32_bytes
  have p := le16_bytes
  simp only [le32] at w
  simp only [le16] at p
  refine ⟨?_, ?_, p af, p nc, ?_, ?_, p ba, p bp, ?_⟩ <;>
    (refine Eq.trans (congrArg _ ?_) (w _); omega)

/-- Where a window of four bytes starts inside a buffer, as a list. -/
theorem take_drop_four (buf : List Byte) (off : Nat) (h : off + 4 ≤ buf.length) :
    (buf.drop off).take 4 =
      [buf.getD off 0, buf.getD (off + 1) 0, buf.getD (off + 2) 0, buf.getD (off + 3) 0] := by
  apply List.ext_getElem
  · simp; omega
  · intro i h1 h2
    simp at h2
    interval_cases i <;> simp [show off < buf.length by omega, show off + 1 < buf.length by omega,
      show off + 2 < buf.length by omega, show off + 3 < buf.length by omega]

theorem take_drop_two (buf : List Byte) (off : Nat) (h : off + 2 ≤ buf.length) :
    (buf.drop off).take 2 = [buf.getD off 0, buf.getD (off + 1) 0] := by
  apply List.ext_getElem
  · simp; omega
  · intro i h1 h2
    simp at h2
    interval_cases i <;> simp [show off < buf.length by omega, show off + 1 < buf.length by omega]

theorem wordAt_eq (buf : List Byte) (off : Nat) (h : off + 4 ≤ buf.length) :
    wordAt buf off = BitVec.ofNat 32
      (le32 (buf.getD off 0) (buf.getD (off + 1) 0) (buf.getD (off + 2) 0) (buf.getD (off + 3) 0)) := by
  rw [wordAt, memRead, take_drop_four _ _ h]
  congr 1
  simp only [leNat, le32]
  omega

theorem halfAt_eq (buf : List Byte) (off : Nat) (h : off + 2 ≤ buf.length) :
    halfAt buf off = BitVec.ofNat 16 (le16 (buf.getD off 0) (buf.getD (off + 1) 0)) := by
  rw [halfAt, memRead, take_drop_two _ _ h]
  congr 1

theorem le32_lt (b0 b1 b2 b3 : Byte) : le32 b0 b1 b2 b3 < 2 ^ 32 := by
  have := b0.isLt; have := b1.isLt; have := b2.isLt; have := b3.isLt
  simp only [le32]; omega

theorem le16_lt (b0 b1 : Byte) : le16 b0 b1 < 2 ^ 16 := by
  have := b0.isLt; have := b1.isLt
  simp only [le16]; omega

theorem wordAt_toNat (buf : List Byte) (off : Nat) (h : off + 4 ≤ buf.length) :
    (wordAt buf off).toNat =
      le32 (buf.getD off 0) (buf.getD (off + 1) 0) (buf.getD (off + 2) 0) (buf.getD (off + 3) 0) := by
  rw [wordAt_eq _ _ h, BitVec.toNat_ofNat, Nat.mod_eq_of_lt (le32_lt ..)]

theorem halfAt_toNat (buf : List Byte) (off : Nat) (h : off + 2 ≤ buf.length) :
    (halfAt buf off).toNat = le16 (buf.getD off 0) (buf.getD (off + 1) 0) := by
  rw [halfAt_eq _ _ h, BitVec.toNat_ofNat, Nat.mod_eq_of_lt (le16_lt ..)]

theorem bytesLe_wordAt (buf : List Byte) (off : Nat) (h : off + 4 ≤ buf.length) :
    bytesLe (wordAt buf off).toNat 4 = (buf.drop off).take 4 := by
  rw [wordAt_eq _ _ h, bytesLe_le32, take_drop_four _ _ h]

theorem bytesLe_halfAt (buf : List Byte) (off : Nat) (h : off + 2 ≤ buf.length) :
    bytesLe (halfAt buf off).toNat 2 = (buf.drop off).take 2 := by
  rw [halfAt_eq _ _ h, bytesLe_le16, take_drop_two _ _ h]

theorem tagAt_bytes (buf : List Byte) (off : Nat) (h : off + 4 ≤ buf.length) :
    (tagAt buf off).bytes = (buf.drop off).take 4 := by
  rw [take_drop_four _ _ h]; rfl

theorem take_append_window (buf : List Byte) (off n : Nat) :
    buf.take off ++ (buf.drop off).take n = buf.take (off + n) := by
  rw [List.take_add]

/-- Packing undoes unpacking, on 44 bytes (R103). -/
theorem packHeader_unpackHeader (buf : List Byte) (h : buf.length = 44) :
    packHeader (unpackHeader buf) = buf := by
  have e : buf = buf.take 44 := by rw [List.take_of_length_le (by omega)]
  conv => rhs; rw [e]
  simp only [packHeader, unpackHeader]
  rw [tagAt_bytes buf 0 (by omega), tagAt_bytes buf 8 (by omega), tagAt_bytes buf 12 (by omega),
    tagAt_bytes buf 36 (by omega), bytesLe_wordAt buf 4 (by omega), bytesLe_wordAt buf 16 (by omega),
    bytesLe_wordAt buf 24 (by omega), bytesLe_wordAt buf 28 (by omega), bytesLe_wordAt buf 40 (by omega),
    bytesLe_halfAt buf 20 (by omega), bytesLe_halfAt buf 22 (by omega), bytesLe_halfAt buf 32 (by omega),
    bytesLe_halfAt buf 34 (by omega)]
  simp only [List.drop_zero, take_append_window, Nat.reduceAdd]
end Sys2Proof.Machine
end

