-- ==== Sys2Proof/Laws/State.lean ====
section
/-!
SUPPORT. What each write of the state leaves in each component, so that no later proof unfolds a record update.
-/
namespace Sys2Proof.Machine

@[simp] theorem slot_setSlot (s : State) (k j : SlotNo) (v : Slot) :
    (s.setSlot k v).slot j = if j = k then v else s.slot j := by
  simp [State.slot, State.setSlot, Vector.getElem_set, Fin.ext_iff, eq_comm]

@[simp] theorem setSlot_status (s : State) (k : SlotNo) (v : Slot) : (s.setSlot k v).status = s.status := rfl
@[simp] theorem setSlot_pbMax (s : State) (k : SlotNo) (v : Slot) : (s.setSlot k v).pbMax = s.pbMax := rfl
@[simp] theorem setSlot_script (s : State) (k : SlotNo) (v : Slot) : (s.setSlot k v).script = s.script := rfl
@[simp] theorem setSlot_index (s : State) (k : SlotNo) (v : Slot) : (s.setSlot k v).index = s.index := rfl
@[simp] theorem setSlot_replies (s : State) (k : SlotNo) (v : Slot) : (s.setSlot k v).replies = s.replies := rfl

/-! A write of STATUS, of the index or of the replies leaves every slot alone. -/

@[simp] theorem hb_setStatus (s : State) (w : Half) (k : SlotNo) : (s.setStatus w).hb k = s.hb k := rfl
@[simp] theorem pb_setStatus (s : State) (w : Half) (k : SlotNo) : (s.setStatus w).pb k = s.pb k := rfl
@[simp] theorem hv_setStatus (s : State) (w : Half) (k : SlotNo) : (s.setStatus w).hv k = s.hv k := rfl
@[simp] theorem h_setStatus (s : State) (w : Half) (k : SlotNo) : (s.setStatus w).h k = s.h k := rfl
@[simp] theorem sb_setStatus (s : State) (w : Half) (k : SlotNo) : (s.setStatus w).sb k = s.sb k := rfl
@[simp] theorem setStatus_status (s : State) (w : Half) : (s.setStatus w).status = w := rfl
@[simp] theorem setStatus_slots (s : State) (w : Half) : (s.setStatus w).slots = s.slots := rfl
@[simp] theorem setStatus_pbMax (s : State) (w : Half) : (s.setStatus w).pbMax = s.pbMax := rfl
@[simp] theorem setStatus_script (s : State) (w : Half) : (s.setStatus w).script = s.script := rfl
@[simp] theorem setStatus_index (s : State) (w : Half) : (s.setStatus w).index = s.index := rfl
@[simp] theorem setStatus_replies (s : State) (w : Half) : (s.setStatus w).replies = s.replies := rfl
@[simp] theorem setStatus_setStatus (s : State) (v w : Half) : (s.setStatus v).setStatus w = s.setStatus w := rfl
@[simp] theorem setStatus_self (s : State) : s.setStatus s.status = s := rfl

@[simp] theorem hb_advance (s : State) (k : SlotNo) : s.advance.hb k = s.hb k := rfl
@[simp] theorem pb_advance (s : State) (k : SlotNo) : s.advance.pb k = s.pb k := rfl
@[simp] theorem hv_advance (s : State) (k : SlotNo) : s.advance.hv k = s.hv k := rfl
@[simp] theorem h_advance (s : State) (k : SlotNo) : s.advance.h k = s.h k := rfl
@[simp] theorem sb_advance (s : State) (k : SlotNo) : s.advance.sb k = s.sb k := rfl
@[simp] theorem advance_status (s : State) : s.advance.status = s.status := rfl
@[simp] theorem advance_pbMax (s : State) : s.advance.pbMax = s.pbMax := rfl
@[simp] theorem advance_script (s : State) : s.advance.script = s.script := rfl
@[simp] theorem advance_index (s : State) : s.advance.index = s.index + 1 := rfl
@[simp] theorem advance_replies (s : State) : s.advance.replies = s.replies := rfl

@[simp] theorem hb_reply (s : State) (r : HostReply) (k : SlotNo) : (s.reply r).hb k = s.hb k := rfl
@[simp] theorem pb_reply (s : State) (r : HostReply) (k : SlotNo) : (s.reply r).pb k = s.pb k := rfl
@[simp] theorem hv_reply (s : State) (r : HostReply) (k : SlotNo) : (s.reply r).hv k = s.hv k := rfl
@[simp] theorem h_reply (s : State) (r : HostReply) (k : SlotNo) : (s.reply r).h k = s.h k := rfl
@[simp] theorem sb_reply (s : State) (r : HostReply) (k : SlotNo) : (s.reply r).sb k = s.sb k := rfl
@[simp] theorem reply_status (s : State) (r : HostReply) : (s.reply r).status = s.status := rfl
@[simp] theorem reply_pbMax (s : State) (r : HostReply) : (s.reply r).pbMax = s.pbMax := rfl
@[simp] theorem reply_script (s : State) (r : HostReply) : (s.reply r).script = s.script := rfl
@[simp] theorem reply_index (s : State) (r : HostReply) : (s.reply r).index = s.index := rfl
@[simp] theorem reply_replies (s : State) (r : HostReply) : (s.reply r).replies = s.replies ++ [r] := rfl

/-! The write of `HB[k]`. -/

@[simp] theorem hb_setHb (s : State) (k j : SlotNo) (q : List Byte) :
    (s.setHb k q).hb j = if j = k then q else s.hb j := by
  by_cases h : j = k <;> simp [State.setHb, State.hb, h]
@[simp] theorem pb_setHb (s : State) (k j : SlotNo) (q : List Byte) : (s.setHb k q).pb j = s.pb j := by
  by_cases h : j = k <;> simp [State.setHb, State.pb, h]
@[simp] theorem hv_setHb (s : State) (k j : SlotNo) (q : List Byte) : (s.setHb k q).hv j = s.hv j := by
  by_cases h : j = k <;> simp [State.setHb, State.hv, h]
@[simp] theorem h_setHb (s : State) (k j : SlotNo) (q : List Byte) : (s.setHb k q).h j = s.h j := by
  by_cases h : j = k <;> simp [State.setHb, State.h, h]
@[simp] theorem sb_setHb (s : State) (k j : SlotNo) (q : List Byte) : (s.setHb k q).sb j = s.sb j := by
  by_cases h : j = k <;> simp [State.setHb, State.sb, h]
@[simp] theorem setHb_status (s : State) (k : SlotNo) (q : List Byte) : (s.setHb k q).status = s.status := rfl
@[simp] theorem setHb_pbMax (s : State) (k : SlotNo) (q : List Byte) : (s.setHb k q).pbMax = s.pbMax := rfl
@[simp] theorem setHb_script (s : State) (k : SlotNo) (q : List Byte) : (s.setHb k q).script = s.script := rfl
@[simp] theorem setHb_index (s : State) (k : SlotNo) (q : List Byte) : (s.setHb k q).index = s.index := rfl
@[simp] theorem setHb_replies (s : State) (k : SlotNo) (q : List Byte) : (s.setHb k q).replies = s.replies := rfl

/-! The write of `PB[k]`. -/

@[simp] theorem hb_setPb (s : State) (k j : SlotNo) (q : List Byte) : (s.setPb k q).hb j = s.hb j := by
  by_cases h : j = k <;> simp [State.setPb, State.hb, h]
@[simp] theorem pb_setPb (s : State) (k j : SlotNo) (q : List Byte) :
    (s.setPb k q).pb j = if j = k then q else s.pb j := by
  by_cases h : j = k <;> simp [State.setPb, State.pb, h]
@[simp] theorem hv_setPb (s : State) (k j : SlotNo) (q : List Byte) : (s.setPb k q).hv j = s.hv j := by
  by_cases h : j = k <;> simp [State.setPb, State.hv, h]
@[simp] theorem h_setPb (s : State) (k j : SlotNo) (q : List Byte) : (s.setPb k q).h j = s.h j := by
  by_cases h : j = k <;> simp [State.setPb, State.h, h]
@[simp] theorem sb_setPb (s : State) (k j : SlotNo) (q : List Byte) : (s.setPb k q).sb j = s.sb j := by
  by_cases h : j = k <;> simp [State.setPb, State.sb, h]
@[simp] theorem setPb_status (s : State) (k : SlotNo) (q : List Byte) : (s.setPb k q).status = s.status := rfl
@[simp] theorem setPb_pbMax (s : State) (k : SlotNo) (q : List Byte) : (s.setPb k q).pbMax = s.pbMax := rfl
@[simp] theorem setPb_script (s : State) (k : SlotNo) (q : List Byte) : (s.setPb k q).script = s.script := rfl
@[simp] theorem setPb_index (s : State) (k : SlotNo) (q : List Byte) : (s.setPb k q).index = s.index := rfl
@[simp] theorem setPb_replies (s : State) (k : SlotNo) (q : List Byte) : (s.setPb k q).replies = s.replies := rfl

/-! The write of `H[k]`, which sets `HV[k]`. -/

@[simp] theorem hb_setH (s : State) (k j : SlotNo) (g : WaveHeader) : (s.setH k g).hb j = s.hb j := by
  by_cases h : j = k <;> simp [State.setH, State.hb, h]
@[simp] theorem pb_setH (s : State) (k j : SlotNo) (g : WaveHeader) : (s.setH k g).pb j = s.pb j := by
  by_cases h : j = k <;> simp [State.setH, State.pb, h]
@[simp] theorem hv_setH (s : State) (k j : SlotNo) (g : WaveHeader) :
    (s.setH k g).hv j = if j = k then true else s.hv j := by
  by_cases h : j = k <;> simp [State.setH, State.hv, h]
@[simp] theorem h_setH (s : State) (k j : SlotNo) (g : WaveHeader) :
    (s.setH k g).h j = if j = k then g else s.h j := by
  by_cases h : j = k <;> simp [State.setH, State.h, h]
@[simp] theorem sb_setH (s : State) (k j : SlotNo) (g : WaveHeader) : (s.setH k g).sb j = s.sb j := by
  by_cases h : j = k <;> simp [State.setH, State.sb, h]
@[simp] theorem setH_status (s : State) (k : SlotNo) (g : WaveHeader) : (s.setH k g).status = s.status := rfl
@[simp] theorem setH_pbMax (s : State) (k : SlotNo) (g : WaveHeader) : (s.setH k g).pbMax = s.pbMax := rfl
@[simp] theorem setH_script (s : State) (k : SlotNo) (g : WaveHeader) : (s.setH k g).script = s.script := rfl
@[simp] theorem setH_index (s : State) (k : SlotNo) (g : WaveHeader) : (s.setH k g).index = s.index := rfl
@[simp] theorem setH_replies (s : State) (k : SlotNo) (g : WaveHeader) : (s.setH k g).replies = s.replies := rfl

/-! The write of `S[k]`, kind included. -/

@[simp] theorem hb_setSb (s : State) (k j : SlotNo) (b : SampleBuffer) : (s.setSb k b).hb j = s.hb j := by
  by_cases h : j = k <;> simp [State.setSb, State.hb, h]
@[simp] theorem pb_setSb (s : State) (k j : SlotNo) (b : SampleBuffer) : (s.setSb k b).pb j = s.pb j := by
  by_cases h : j = k <;> simp [State.setSb, State.pb, h]
@[simp] theorem hv_setSb (s : State) (k j : SlotNo) (b : SampleBuffer) : (s.setSb k b).hv j = s.hv j := by
  by_cases h : j = k <;> simp [State.setSb, State.hv, h]
@[simp] theorem h_setSb (s : State) (k j : SlotNo) (b : SampleBuffer) : (s.setSb k b).h j = s.h j := by
  by_cases h : j = k <;> simp [State.setSb, State.h, h]
@[simp] theorem sb_setSb (s : State) (k j : SlotNo) (b : SampleBuffer) :
    (s.setSb k b).sb j = if j = k then b else s.sb j := by
  by_cases h : j = k <;> simp [State.setSb, State.sb, h]
@[simp] theorem setSb_status (s : State) (k : SlotNo) (b : SampleBuffer) : (s.setSb k b).status = s.status := rfl
@[simp] theorem setSb_pbMax (s : State) (k : SlotNo) (b : SampleBuffer) : (s.setSb k b).pbMax = s.pbMax := rfl
@[simp] theorem setSb_script (s : State) (k : SlotNo) (b : SampleBuffer) : (s.setSb k b).script = s.script := rfl
@[simp] theorem setSb_index (s : State) (k : SlotNo) (b : SampleBuffer) : (s.setSb k b).index = s.index := rfl
@[simp] theorem setSb_replies (s : State) (k : SlotNo) (b : SampleBuffer) : (s.setSb k b).replies = s.replies := rfl

/-! The block after Reset. -/

theorem slot_blockReset (s : State) (k : SlotNo) : s.blockReset.slot k = Slot.reset := by
  simp [State.blockReset, State.slot, State.reset]
@[simp] theorem hb_blockReset (s : State) (k : SlotNo) : s.blockReset.hb k = [] := by
  simp [State.hb, slot_blockReset, Slot.reset]
@[simp] theorem pb_blockReset (s : State) (k : SlotNo) : s.blockReset.pb k = [] := by
  simp [State.pb, slot_blockReset, Slot.reset]
@[simp] theorem hv_blockReset (s : State) (k : SlotNo) : s.blockReset.hv k = false := by
  simp [State.hv, slot_blockReset, Slot.reset]
@[simp] theorem sb_blockReset (s : State) (k : SlotNo) : s.blockReset.sb k = .none := by
  simp [State.sb, slot_blockReset, Slot.reset]
@[simp] theorem blockReset_status (s : State) : s.blockReset.status = 0 := rfl
@[simp] theorem blockReset_pbMax (s : State) : s.blockReset.pbMax = s.pbMax := rfl
@[simp] theorem blockReset_script (s : State) : s.blockReset.script = s.script := rfl
@[simp] theorem blockReset_index (s : State) : s.blockReset.index = s.index := rfl
@[simp] theorem blockReset_replies (s : State) : s.blockReset.replies = s.replies := rfl

/-- Two states with the same slots and the same fields are the same state. -/
theorem State.ext_of_slots {s t : State} (hs : ∀ k, s.slot k = t.slot k) (hst : s.status = t.status)
    (hp : s.pbMax = t.pbMax) (hsc : s.script = t.script) (hi : s.index = t.index)
    (hr : s.replies = t.replies) : s = t := by
  have hslots : s.slots = t.slots := by
    apply Vector.ext
    intro i hi'
    exact hs ⟨i, hi'⟩
  cases s
  cases t
  simp_all

/-- Two slots with the same five components are the same slot. -/
theorem slot_ext_of_components {s t : State} {k j : SlotNo} (hhb : s.hb k = t.hb j) (hpb : s.pb k = t.pb j)
    (hhv : s.hv k = t.hv j) (hh : s.h k = t.h j) (hsb : s.sb k = t.sb j) : s.slot k = t.slot j := by
  simp only [State.hb, State.pb, State.hv, State.h, State.sb] at *
  cases h1 : s.slot k
  cases h2 : t.slot j
  simp_all

end Sys2Proof.Machine
end

