-- ==== Sys2Proof/Laws/Ops.lean ====
section
/-!
SUPPORT. What each shared operation can do, once: the end of a command, DeriveHeader, the delivery of a
transform's result, and what a command in general leaves (`exec_shape`).
-/
namespace Sys2Proof.Machine

/-! The kinds and the length of a sample buffer. -/

@[simp] theorem count_none : SampleBuffer.none.count = 0 := rfl
@[simp] theorem count_i16 (q : List Half) : (SampleBuffer.i16 q).count = q.length := rfl
@[simp] theorem count_u32 (q : List Word) : (SampleBuffer.u32 q).count = q.length := rfl

theorem kind_eq_i16_iff (b : SampleBuffer) : b.kind = .i16 ↔ ∃ q, b = .i16 q := by
  cases b <;> simp [SampleBuffer.kind]

theorem kind_eq_u32_iff (b : SampleBuffer) : b.kind = .u32 ↔ ∃ q, b = .u32 q := by
  cases b <;> simp [SampleBuffer.kind]

/-! The end of a command (60_exceptions.md R205, R206). -/

theorem complete_eq (s : State) : complete s = .next (s.setStatus (doneStatus s.status)) := by
  simp [complete, finish, statusAfter_done]

theorem raise_eq (f : FaultCode) (s : State) :
    raise f s = .next (s.setStatus (faultStatus s.status f.code)) := by
  simp [raise, finish, statusAfter_fault]

theorem completeAdvising_eq (adv : Advisory) (s : State) :
    completeAdvising adv s =
      .next (s.setStatus (withAdvisory (doneStatus s.status) adv.wrate adv.wlen)) := by
  simp [completeAdvising, finish, statusAfter_advised]

theorem raiseAdvising_eq (f : FaultCode) (adv : Advisory) (s : State) :
    raiseAdvising f adv s =
      .next (s.setStatus (withAdvisory (faultStatus s.status f.code) adv.wrate adv.wlen)) := by
  simp [raiseAdvising, finish, statusAfter_advisedFault]

/-- Ending a command with no advisory is completing it, or raising its fault. -/
@[simp] theorem completeAdvising_clear (s : State) : completeAdvising Advisory.clear s = complete s := rfl
@[simp] theorem raiseAdvising_clear (f : FaultCode) (s : State) :
    raiseAdvising f Advisory.clear s = raise f s := rfl

/-! DeriveHeader (40_header_codec.md R106, R107). -/

/-- When DeriveHeader raises RangeOverflow (R107). -/
theorem deriveHeader_eq_none_iff (h : WaveHeader) (nch bps nbytes : Nat) :
    deriveHeader h nch bps nbytes = none ↔ 4294967295 < h.sampleRate.toNat * nch * bps / 8 := by
  simp [deriveHeader]

/-- What DeriveHeader gives, over the integers (R106). -/
theorem derivedFrom_of_deriveHeader {h g : WaveHeader} {nch bps nbytes : Nat}
    (hg : deriveHeader h nch bps nbytes = some g) (hn : nch ≤ 2) (hb : bps ≤ 32)
    (hs : nbytes ≤ Config.pbMaxBound) : derivedFrom h g nch bps nbytes := by
  unfold deriveHeader at hg
  simp only at hg
  split at hg
  · cases hg
  · rename_i hle
    have hbl : nch * bps / 8 < 65536 := by
      have := Nat.mul_le_mul hn hb
      omega
    simp only [Config.pbMaxBound] at hs
    cases hg
    refine ⟨rfl, rfl, rfl, rfl, rfl, rfl, rfl, ?_, ?_, ?_, ?_, ?_, ?_⟩ <;> simp <;> omega

/-- DeriveHeader succeeds when the derived byteRate fits (R107). -/
theorem deriveHeader_some {h : WaveHeader} {nch bps : Nat} (nbytes : Nat)
    (hle : h.sampleRate.toNat * nch * bps / 8 ≤ 4294967295) :
    ∃ g, deriveHeader h nch bps nbytes = some g := by
  cases hd : deriveHeader h nch bps nbytes with
  | some g => exact ⟨g, rfl⟩
  | none =>
    rw [deriveHeader_eq_none_iff] at hd
    omega

/-- The two things the delivery of a transform's result can do. -/
theorem deliver_cases (d : SlotNo) (h : WaveHeader) (nch bps nbytes : Nat) (out : SampleBuffer) (adv : Advisory)
    (s : State) :
    (4294967295 < h.sampleRate.toNat * nch * bps / 8 ∧
      deliver d h nch bps nbytes out adv s = raiseAdvising .rangeOverflow adv s) ∨
    (h.sampleRate.toNat * nch * bps / 8 ≤ 4294967295 ∧ ∃ g, deriveHeader h nch bps nbytes = some g ∧
      deliver d h nch bps nbytes out adv s = completeAdvising adv ((s.setH d g).setSb d out)) := by
  cases hd : deriveHeader h nch bps nbytes with
  | none => exact .inl ⟨(deriveHeader_eq_none_iff ..).1 hd, by simp [deliver, hd]⟩
  | some g =>
    refine .inr ⟨?_, g, rfl, by simp [deliver, hd]⟩
    by_contra hlt
    have := (deriveHeader_eq_none_iff h nch bps nbytes).2 (by omega)
    simp [this] at hd

/-! What a command can leave. -/

/-- `Wrote s i t`: `t` is `s` with the destination components of command `i` written, before STATUS is. -/
inductive Wrote (s : State) : Instr → State → Prop
  | hdec (d a : SlotNo) (hl : 44 ≤ (s.hb a).length) :
      Wrote s (.hdec d a) (s.setH d (unpackHeader (s.hb a)))
  | henc (d a : SlotNo) (hv : s.hv a = true) : Wrote s (.henc d a) (s.setHb d (packHeader (s.h a)))
  | d16 (d a : SlotNo) (hl : (s.pb a).length % 2 = 0) :
      Wrote s (.d16 d a) (s.setSb d (.i16 (samples16 (s.pb a))))
  | e16 (d a : SlotNo) (q : List Half) (hq : s.sb a = .i16 q) :
      Wrote s (.e16 d a) (s.setPb d (bytes16 q))
  | d32 (d a : SlotNo) (hl : (s.pb a).length % 4 = 0) :
      Wrote s (.d32 d a) (s.setSb d (.u32 (samples32 (s.pb a))))
  | e32 (d a : SlotNo) (q : List Word) (hq : s.sb a = .u32 q) :
      Wrote s (.e32 d a) (s.setPb d (bytes32 q))
  | transform (i : Instr) (h g : WaveHeader) (nch bps : Nat) (out : SampleBuffer) (hi : isTransform i = true)
      (hn : nch ≤ 2) (hb : bps ≤ 32) (hout : out ≠ .none)
      (hfit : samplesFit s = true → out.byteSize ≤ s.pbMax)
      (hg : deriveHeader h nch bps out.byteSize = some g) :
      Wrote s i ((s.setH (destOf i) g).setSb (destOf i) out)

/-- A command ends in one of two ways: with a fault, all but STATUS as it was, or complete, its destination
components written. Only M2S leaves an advisory. -/
def Shape (i : Instr) (s : State) : Prop :=
  ∃ adv, (isM2s i = false → adv = Advisory.clear) ∧
    ((∃ f, exec i s = finish (some f) adv s) ∨ (∃ t, exec i s = finish none adv t ∧ Wrote s i t))

theorem samplesFit_slot {s : State} (h : samplesFit s = true) (k : SlotNo) : (s.sb k).byteSize ≤ s.pbMax := by
  simp only [samplesFit, List.all_eq_true, decide_eq_true_eq] at h
  exact h k (List.mem_finRange k)

theorem shape_deliver {i : Instr} {s : State} {h : WaveHeader} {nch bps nbytes : Nat} {out : SampleBuffer}
    {adv : Advisory} (he : exec i s = deliver (destOf i) h nch bps nbytes out adv s)
    (hadv : isM2s i = false → adv = Advisory.clear) (hi : isTransform i = true) (hn : nch ≤ 2) (hb : bps ≤ 32)
    (hout : out ≠ .none) (hfit : samplesFit s = true → out.byteSize ≤ s.pbMax) (hsize : out.byteSize = nbytes) :
    Shape i s := by
  subst hsize
  rcases deliver_cases (destOf i) h nch bps out.byteSize out adv s with ⟨-, hd⟩ | ⟨-, g, hg, hd⟩
  · exact ⟨adv, hadv, .inl ⟨.rangeOverflow, he.trans hd⟩⟩
  · exact ⟨adv, hadv, .inr ⟨_, he.trans hd, .transform i h g nch bps out hi hn hb hout hfit hg⟩⟩

theorem shape_raise {i : Instr} {s : State} {f : FaultCode} (he : exec i s = raise f s) : Shape i s :=
  ⟨Advisory.clear, fun _ => rfl, .inl ⟨f, he⟩⟩

theorem shape_complete {i : Instr} {s t : State} (he : exec i s = complete t) (hw : Wrote s i t) : Shape i s :=
  ⟨Advisory.clear, fun _ => rfl, .inr ⟨t, he, hw⟩⟩

theorem shape_s2m {i : Instr} {s : State} {f : Int → Int → Int} (a : SlotNo)
    (he : exec i s = s2mBody f (destOf i) a s) (hi : isTransform i = true) : Shape i s := by
  unfold s2mBody at he
  split at he
  · exact shape_raise he
  split at he
  · exact shape_raise he
  split at he
  · rename_i q hq
    refine shape_deliver he (fun _ => rfl) hi (by omega) (by omega) (by simp) (fun hf => ?_) (by simp [SampleBuffer.byteSize])
    have := samplesFit_slot hf a
    simp [hq, SampleBuffer.byteSize] at this ⊢
    omega
  · exact shape_raise he
  · exact shape_raise he

/-- Every command ends in one of the two ways. -/
theorem exec_shape (i : Instr) (s : State) : Shape i s := by
  cases i with
  | hdec d a =>
    by_cases h : (s.hb a).length < 44
    · exact shape_raise (f := .truncatedInput) (by simp [exec, execHdec, h])
    · exact shape_complete (by simp only [exec, execHdec, h, if_false]) (.hdec d a (by omega))
  | henc d a =>
    by_cases h : s.hv a = false
    · exact shape_raise (f := .invalidOperand) (by simp [exec, execHenc, h])
    · exact shape_complete (by simp [exec, execHenc, h]) (.henc d a (by simpa using h))
  | d16 d a =>
    by_cases h : (s.pb a).length % 2 ≠ 0
    · exact shape_raise (f := .misalignedBuffer) (by simp only [exec, execD16, h, if_true, not_false_eq_true, ne_eq])
    · exact shape_complete (by simp only [exec, execD16, h, if_false]) (.d16 d a (by simpa using h))
  | e16 d a =>
    cases h : s.sb a with
    | none => exact shape_raise (f := .invalidOperand) (by simp only [exec, execE16, h])
    | i16 q => exact shape_complete (by simp only [exec, execE16, h]) (.e16 d a q h)
    | u32 q => exact shape_raise (f := .invalidOperand) (by simp only [exec, execE16, h])
  | d32 d a =>
    by_cases h : (s.pb a).length % 4 ≠ 0
    · exact shape_raise (f := .misalignedBuffer) (by simp only [exec, execD32, h, if_true, not_false_eq_true, ne_eq])
    · exact shape_complete (by simp only [exec, execD32, h, if_false]) (.d32 d a (by simpa using h))
  | e32 d a =>
    cases h : s.sb a with
    | none => exact shape_raise (f := .invalidOperand) (by simp only [exec, execE32, h])
    | i16 q => exact shape_raise (f := .invalidOperand) (by simp only [exec, execE32, h])
    | u32 q => exact shape_complete (by simp only [exec, execE32, h]) (.e32 d a q h)
  | s2mLeft d a => exact shape_s2m a rfl rfl
  | s2mRight d a => exact shape_s2m a rfl rfl
  | s2mSum d a => exact shape_s2m a rfl rfl
  | s2mDiff d a => exact shape_s2m a rfl rfl
  | m2s d a b =>
    have he : exec (.m2s d a b) s = execM2s d a b s := rfl
    unfold execM2s at he
    split at he
    · exact shape_raise he
    split at he
    · exact shape_raise he
    simp only at he
    split at he
    · rename_i ql qr hl hr
      unfold m2sCombine at he
      simp only at he
      split at he
      · exact ⟨_, (fun h => by cases h), .inl ⟨_, he⟩⟩
      · rename_i hcap
        have hsize : (SampleBuffer.i16 (interleave (ql.zip qr))).byteSize = 4 * min ql.length qr.length := by
          simp [SampleBuffer.byteSize]
          omega
        refine shape_deliver he (fun h => by cases h) rfl (by omega) (by omega) (by simp) (fun _ => ?_) hsize
        omega
    · exact ⟨_, (fun h => by cases h), .inl ⟨_, he⟩⟩
  | mse d a =>
    have he : exec (.mse d a) s = execMse d a s := rfl
    unfold execMse at he
    split at he
    · exact shape_raise he
    split at he
    · exact shape_raise he
    split at he
    · rename_i q hq
      refine shape_deliver he (fun _ => rfl) rfl (by omega) (by omega) (by simp) (fun hf => ?_)
        (by simp [SampleBuffer.byteSize])
      have := samplesFit_slot hf a
      simp [hq, SampleBuffer.byteSize] at this ⊢
      omega
    · exact shape_raise he
    · exact shape_raise he
  | msd d a =>
    have he : exec (.msd d a) s = execMsd d a s := rfl
    unfold execMsd at he
    split at he
    · exact shape_raise he
    split at he
    · exact shape_raise he
    split at he
    · rename_i q hq
      have hsize : (SampleBuffer.i16 (interleave (q.map unpackWord))).byteSize = 4 * q.length := by
        simp [SampleBuffer.byteSize]
        omega
      refine shape_deliver he (fun _ => rfl) rfl (by omega) (by omega) (by simp) (fun hf => ?_) hsize
      have := samplesFit_slot hf a
      simp [hq, SampleBuffer.byteSize] at this ⊢
      omega
    · exact shape_raise he
    · exact shape_raise he

/-- `exec_shape` read off the next state: the state before with STATUS written, or the state with the
destination written and then STATUS. -/
theorem exec_next {i : Instr} {s t : State} (h : exec i s = .next t) :
    ∃ adv, (isM2s i = false → adv = Advisory.clear) ∧
      ((∃ f, t = s.setStatus (statusAfter s.status (some f) adv)) ∨
        (∃ u, Wrote s i u ∧ t = u.setStatus (statusAfter s.status none adv))) := by
  have hfin : ∀ {fault adv u}, finish fault adv u = .next t →
      t = u.setStatus (statusAfter u.status fault adv) := by
    intro fault adv u hu
    cases hu
    rfl
  obtain ⟨adv, ha, ⟨f, hf⟩ | ⟨u, hu, hw⟩⟩ := exec_shape i s
  · exact ⟨adv, ha, .inl ⟨f, hfin (hf.symm.trans h)⟩⟩
  · refine ⟨adv, ha, .inr ⟨u, hw, ?_⟩⟩
    have hst : u.status = s.status := by cases hw <;> rfl
    rw [← hst]
    exact hfin (hu.symm.trans h)

/-- Writing destinations leaves STATUS, the capacity and the host's side alone. -/
theorem Wrote.rest {s u : State} {i : Instr} (h : Wrote s i u) :
    u.status = s.status ∧ u.pbMax = s.pbMax ∧ u.script = s.script ∧ u.index = s.index ∧
      u.replies = s.replies := by
  cases h <;> exact ⟨rfl, rfl, rfl, rfl, rfl⟩

end Sys2Proof.Machine
end

