-- ==== Sys2Proof/Laws/Exec.lean ====
section
/-!
SUPPORT. The next state of every command where it completes, as one equation each: the destination components
written, then STATUS. The conditions are on the state and the operands alone.
-/
namespace Sys2Proof.Machine

theorem exec_hdec_ok (d : SlotNo) {a : SlotNo} {s : State} (h : 44 ≤ (s.hb a).length) :
    exec (.hdec d a) s = .next ((s.setH d (unpackHeader (s.hb a))).setStatus (doneStatus s.status)) := by
  have h' : ¬(s.hb a).length < 44 := by omega
  simp [exec, execHdec, h', complete_eq]

theorem exec_henc_ok (d : SlotNo) {a : SlotNo} {s : State} (h : s.hv a = true) :
    exec (.henc d a) s = .next ((s.setHb d (packHeader (s.h a))).setStatus (doneStatus s.status)) := by
  simp [exec, execHenc, h, complete_eq]

theorem exec_d16_ok (d : SlotNo) {a : SlotNo} {s : State} (h : (s.pb a).length % 2 = 0) :
    exec (.d16 d a) s = .next ((s.setSb d (.i16 (samples16 (s.pb a)))).setStatus (doneStatus s.status)) := by
  simp [exec, execD16, h, complete_eq]

theorem exec_e16_ok (d : SlotNo) {a : SlotNo} {s : State} {q : List Half} (h : s.sb a = .i16 q) :
    exec (.e16 d a) s = .next ((s.setPb d (bytes16 q)).setStatus (doneStatus s.status)) := by
  simp [exec, execE16, h, complete_eq]

theorem exec_d32_ok (d : SlotNo) {a : SlotNo} {s : State} (h : (s.pb a).length % 4 = 0) :
    exec (.d32 d a) s = .next ((s.setSb d (.u32 (samples32 (s.pb a)))).setStatus (doneStatus s.status)) := by
  simp [exec, execD32, h, complete_eq]

theorem exec_e32_ok (d : SlotNo) {a : SlotNo} {s : State} {q : List Word} (h : s.sb a = .u32 q) :
    exec (.e32 d a) s = .next ((s.setPb d (bytes32 q)).setStatus (doneStatus s.status)) := by
  simp [exec, execE32, h, complete_eq]

/-- The delivery of a transform's result, where the derived byteRate fits. -/
theorem deliver_ok (d : SlotNo) {h : WaveHeader} {nch bps : Nat} (nbytes : Nat) (out : SampleBuffer)
    (adv : Advisory) (s : State) (hle : h.sampleRate.toNat * nch * bps / 8 ≤ 4294967295) :
    ∃ g, deriveHeader h nch bps nbytes = some g ∧ deliver d h nch bps nbytes out adv s =
      .next (((s.setH d g).setSb d out).setStatus
        (withAdvisory (doneStatus s.status) adv.wrate adv.wlen)) := by
  obtain ⟨g, hg⟩ := deriveHeader_some nbytes hle
  exact ⟨g, hg, by simp [deliver, hg, completeAdvising_eq]⟩

/-- An advisory that is clear adds nothing to STATUS. -/
@[simp] theorem withAdvisory_clear (w : Half) :
    withAdvisory w Advisory.clear.wrate Advisory.clear.wlen = w := by
  simp [withAdvisory, Advisory.clear]

/-- The four S2M commands share this: a stereo 16-bit header, an I16 buffer, a byteRate that fits. -/
theorem s2mBody_ok (f : Int → Int → Int) (d : SlotNo) {a : SlotNo} {s : State} {q : List Half}
    (hv : s.hv a = true) (hn : (s.h a).numChannels = 2) (hb : (s.h a).bitsPerSample = 16)
    (hq : s.sb a = .i16 q) (hr : (s.h a).sampleRate.toNat < 2 ^ 31) :
    ∃ g, deriveHeader (s.h a) 1 16 (2 * (q.length / 2)) = some g ∧ s2mBody f d a s =
      .next (((s.setH d g).setSb d (.i16 (monoOf f q))).setStatus (doneStatus s.status)) := by
  obtain ⟨g, hg, he⟩ := deliver_ok d (h := s.h a) (nch := 1) (bps := 16) (2 * (q.length / 2))
    (.i16 (monoOf f q)) Advisory.clear s (by omega)
  exact ⟨g, hg, by simpa [s2mBody, hv, hn, hb, hq] using he⟩

theorem exec_m2s_ok (d : SlotNo) {a b : SlotNo} {s : State} {ql qr : List Half} (hva : s.hv a = true)
    (hvb : s.hv b = true) (hna : (s.h a).numChannels = 1) (hnb : (s.h b).numChannels = 1)
    (hba : (s.h a).bitsPerSample = 16) (hbb : (s.h b).bitsPerSample = 16) (hqa : s.sb a = .i16 ql)
    (hqb : s.sb b = .i16 qr) (hcap : 4 * min ql.length qr.length ≤ s.pbMax)
    (hr : (s.h a).sampleRate.toNat < 2 ^ 30) :
    ∃ g, deriveHeader (s.h a) 2 16 (4 * min ql.length qr.length) = some g ∧ exec (.m2s d a b) s =
      .next (((s.setH d g).setSb d (.i16 (interleave (ql.zip qr)))).setStatus
        (withAdvisory (doneStatus s.status) ((s.h a).sampleRate ≠ (s.h b).sampleRate)
          ((s.h a).subchunk2Size ≠ (s.h b).subchunk2Size))) := by
  obtain ⟨g, hg, he⟩ := deliver_ok d (h := s.h a) (nch := 2) (bps := 16) (4 * min ql.length qr.length)
    (.i16 (interleave (ql.zip qr))) (m2sAdvisory (s.h a) (s.h b)) s (by omega)
  refine ⟨g, hg, ?_⟩
  have hcap' : ¬s.pbMax < 4 * min ql.length qr.length := by omega
  simp only [exec, execM2s, hva, hvb, isMono16, hna, hnb, hba, hbb, hqa, hqb, m2sCombine, hcap']
  simpa [m2sAdvisory] using he

theorem exec_mse_ok (d : SlotNo) {a : SlotNo} {s : State} {q : List Half} (hv : s.hv a = true)
    (hn : (s.h a).numChannels = 2) (hb : (s.h a).bitsPerSample = 16) (hq : s.sb a = .i16 q)
    (hr : (s.h a).sampleRate.toNat < 2 ^ 30) :
    ∃ g, deriveHeader (s.h a) 1 32 (4 * (q.length / 2)) = some g ∧ exec (.mse d a) s =
      .next (((s.setH d g).setSb d (.u32 ((stereoPairs q).map packPair))).setStatus
        (doneStatus s.status)) := by
  obtain ⟨g, hg, he⟩ := deliver_ok d (h := s.h a) (nch := 1) (bps := 32) (4 * (q.length / 2))
    (.u32 ((stereoPairs q).map packPair)) Advisory.clear s (by omega)
  exact ⟨g, hg, by simpa [exec, execMse, hv, hn, hb, hq] using he⟩

theorem exec_msd_ok (d : SlotNo) {a : SlotNo} {s : State} {q : List Word} (hv : s.hv a = true)
    (hn : (s.h a).numChannels = 1) (hb : (s.h a).bitsPerSample = 32) (hq : s.sb a = .u32 q)
    (hr : (s.h a).sampleRate.toNat < 2 ^ 30) :
    ∃ g, deriveHeader (s.h a) 2 16 (4 * q.length) = some g ∧ exec (.msd d a) s =
      .next (((s.setH d g).setSb d (.i16 (interleave (q.map unpackWord)))).setStatus
        (doneStatus s.status)) := by
  obtain ⟨g, hg, he⟩ := deliver_ok d (h := s.h a) (nch := 2) (bps := 16) (4 * q.length)
    (.i16 (interleave (q.map unpackWord))) Advisory.clear s (by omega)
  exact ⟨g, hg, by simpa [exec, execMsd, hv, hn, hb, hq] using he⟩

end Sys2Proof.Machine
end

