-- ==== Sys2Proof/Laws/Memory.lean ====
section
/-!
SUPPORT. Every memory operation keeps the canonical form of memory, and reset has it.
-/
namespace Sys2Proof.Machine

theorem pbMaxLegal_iff (n : Nat) : pbMaxLegal n = true ↔ n % 4 = 0 ∧ n ≤ Config.pbMaxBound := by
  simp only [pbMaxLegal, Bool.and_eq_true, decide_eq_true_eq]

/-- Under the invariant every sample buffer is within the bound R8 puts on the capacity. -/
theorem Inv_byteSize_le {s : State} (hs : s.Inv) (k : SlotNo) : (s.sb k).byteSize ≤ Config.pbMaxBound :=
  Nat.le_trans (samplesFit_slot hs.2.2.1 k) ((pbMaxLegal_iff _).1 hs.1).2

theorem memory_wf_iff (s : State) :
    Memory.wf s = true ↔ ∀ k, (s.hb k).length ≤ 44 ∧ (s.pb k).length ≤ s.pbMax := by
  simp [Memory.wf, List.all_eq_true]

theorem reset_memory_wf : Memory.wf State.reset = true := by
  rw [memory_wf_iff]
  intro k
  have : State.reset.slot k = Slot.reset := by simp [State.slot, State.reset]
  simp [State.hb, State.pb, this, Slot.reset]

theorem setHb_memory_wf {s : State} (hs : Memory.wf s = true) (k : SlotNo) {q : List Byte} (hq : q.length ≤ 44) :
    Memory.wf (s.setHb k q) = true := by
  rw [memory_wf_iff] at *
  intro j
  have := hs j
  by_cases hj : j = k <;> simp_all

theorem setPb_memory_wf {s : State} (hs : Memory.wf s = true) (k : SlotNo) {q : List Byte}
    (hq : q.length ≤ s.pbMax) : Memory.wf (s.setPb k q) = true := by
  rw [memory_wf_iff] at *
  intro j
  have := hs j
  by_cases hj : j = k <;> simp_all

theorem setH_memory_wf {s : State} (hs : Memory.wf s = true) (k : SlotNo) (g : WaveHeader) :
    Memory.wf (s.setH k g) = true := by
  rw [memory_wf_iff] at *
  simpa using hs

theorem setSb_memory_wf {s : State} (hs : Memory.wf s = true) (k : SlotNo) (b : SampleBuffer) :
    Memory.wf (s.setSb k b) = true := by
  rw [memory_wf_iff] at *
  simpa using hs

theorem setStatus_memory_wf {s : State} (hs : Memory.wf s = true) (w : Half) :
    Memory.wf (s.setStatus w) = true := by
  rw [memory_wf_iff] at *
  simpa using hs

theorem blockReset_memory_wf (s : State) : Memory.wf s.blockReset = true := by
  rw [memory_wf_iff]
  simp

/-- HostLoad keeps the canonical form (20_memory.md R71). -/
theorem hostLoad_memory_wf {s t : State} (hs : Memory.wf s = true) {k : SlotNo} {q : List Byte}
    (ht : hostLoad k q s = .next t) : Memory.wf t = true := by
  unfold hostLoad at ht
  split at ht
  · cases ht
  · cases ht
    refine setPb_memory_wf (setHb_memory_wf hs k ?_) k ?_
    · simp
    · simp; omega

theorem samplesFit_iff (s : State) : samplesFit s = true ↔ ∀ k, (s.sb k).byteSize ≤ s.pbMax := by
  simp [samplesFit, List.all_eq_true]

/-- A command writes only what fits: memory keeps its form and the sample buffers their capacity (10_state.md
R34). -/
theorem Wrote.fits {s u : State} {i : Instr} (h : Wrote s i u) (hm : Memory.wf s = true)
    (hs : samplesFit s = true) : Memory.wf u = true ∧ samplesFit u = true := by
  have hm' := (memory_wf_iff s).1 hm
  have hs' := (samplesFit_iff s).1 hs
  have fits : ∀ (t : State) (d : SlotNo) (b : SampleBuffer), t.pbMax = s.pbMax → (∀ k, t.sb k = s.sb k) →
      b.byteSize ≤ s.pbMax → samplesFit (t.setSb d b) = true := by
    intro t d b hp hsb hb
    rw [samplesFit_iff]
    intro k
    by_cases hk : k = d
    · simpa [hk, hp] using hb
    · simpa [hk, hp, hsb] using hs' k
  cases h with
  | hdec d a hl => exact ⟨setH_memory_wf hm _ _, by rw [samplesFit_iff]; simpa using hs'⟩
  | henc d a hv => exact ⟨setHb_memory_wf hm _ (by simp), by rw [samplesFit_iff]; simpa using hs'⟩
  | d16 d a hl =>
    refine ⟨setSb_memory_wf hm _ _, fits s d _ rfl (fun _ => rfl) ?_⟩
    have := (hm' a).2
    simp [SampleBuffer.byteSize]
    omega
  | e16 d a q hq =>
    refine ⟨setPb_memory_wf hm _ ?_, by rw [samplesFit_iff]; simpa using hs'⟩
    have := hs' a
    simpa [hq, SampleBuffer.byteSize] using this
  | d32 d a hl =>
    refine ⟨setSb_memory_wf hm _ _, fits s d _ rfl (fun _ => rfl) ?_⟩
    have := (hm' a).2
    simp [SampleBuffer.byteSize]
    omega
  | e32 d a q hq =>
    refine ⟨setPb_memory_wf hm _ ?_, by rw [samplesFit_iff]; simpa using hs'⟩
    have := hs' a
    simpa [hq, SampleBuffer.byteSize] using this
  | transform i h g nch bps out hi hn hb hout hfit hg =>
    exact ⟨setSb_memory_wf (setH_memory_wf hm _ _) _ _, fits _ _ _ rfl (by simp) (hfit hs)⟩

end Sys2Proof.Machine
end

