-- ==== Sys2Proof/Laws/Step.lean ====
section
/-!
SUPPORT. What one step can do, once: the inversion of `step`, which every whole-machine statement starts from.
-/
namespace Sys2Proof.Machine

/-- A step that has a next state does the next host action and moves the index. -/
theorem step_next {s t : State} (h : step s = .next t) :
    ∃ act u, nextAction s = some act ∧ performAction act s = .next u ∧ t = u.advance := by
  unfold step runNext at h
  split at h
  · cases h
  · rename_i act hact
    cases hp : performAction act s with
    | next u =>
      rw [hp] at h
      cases h
      exact ⟨act, u, hact, hp, rfl⟩
    | fault r =>
      rw [hp] at h
      cases h
    | refused r =>
      rw [hp] at h
      cases h

/-- What HostCmd can do: a command, or IllegalCommand. -/
theorem hostCmd_next {w : Half} {s t : State} (h : hostCmd w s = .next t) :
    (∃ i, decode w = .ok i ∧ exec i s = .next t) ∨
    (∃ e, decode w = .error e ∧ t = s.setStatus (faultStatus s.status 5)) := by
  unfold hostCmd at h
  split at h
  · rename_i i hi
    exact .inl ⟨i, hi, h⟩
  · rename_i e he
    rw [raise_eq] at h
    cases h
    exact .inr ⟨e, he, rfl⟩

/-- What HostLoad can do when it has a step. -/
theorem hostLoad_next {k : SlotNo} {q : List Byte} {s t : State} (h : hostLoad k q s = .next t) :
    q.length ≤ 44 + s.pbMax ∧ t = (s.setHb k (q.take 44)).setPb k (q.drop 44) := by
  unfold hostLoad at h
  split at h
  · cases h
  · cases h
    exact ⟨by omega, rfl⟩

/-- The next action lies in the list. -/
theorem index_lt_of_nextAction {s : State} {act : HostAction} (h : nextAction s = some act) :
    s.index < s.script.length := (List.getElem?_eq_some_iff.1 h).1

/-- `withFetchWord` puts the command word where the next step takes its action. -/
theorem nextAction_withFetchWord (s : State) (nbits w : Nat) :
    nextAction (s.withFetchWord nbits w) = some (.cmd (BitVec.ofNat 16 (w % 2 ^ nbits))) := by
  simp [nextAction, State.withFetchWord]

end Sys2Proof.Machine
end

