-- ==== Sys2Proof/Tests/Slice0.lean ====
section
/-!
SUPPORT. Tests. Expected values are those of 95_test_vectors.md (the vector is named in each comment) or are worked
out by hand from the rule named. Each `witness_…` meets the hypotheses of the statement it names.
-/
namespace Sys2Proof.Tests
open Sys2Proof Sys2Proof.Machine

/-! ## Helpers -/

/-- A machine as after reset, with a capacity of 64 bytes. -/
def blank : State :=
  { slots := Vector.replicate 4 Slot.reset, status := 0, pbMax := 64, script := [], index := 0, replies := [] }

/-- The header of part 2's abbreviations: the six derived fields as R106 gives them. -/
def wav (nch rate bps nbytes : Nat) : WaveHeader where
  chunkId := ⟨0x52, 0x49, 0x46, 0x46⟩
  chunkSize := BitVec.ofNat 32 (36 + nbytes)
  format := ⟨0x57, 0x41, 0x56, 0x45⟩
  subchunk1Id := ⟨0x66, 0x6D, 0x74, 0x20⟩
  subchunk1Size := 16
  audioFormat := 1
  numChannels := BitVec.ofNat 16 nch
  sampleRate := BitVec.ofNat 32 rate
  byteRate := BitVec.ofNat 32 (rate * nch * bps / 8)
  blockAlign := BitVec.ofNat 16 (nch * bps / 8)
  bitsPerSample := BitVec.ofNat 16 bps
  subchunk2Id := ⟨0x64, 0x61, 0x74, 0x61⟩
  subchunk2Size := BitVec.ofNat 32 nbytes

/-- The bytes of ST44(8), as part 2 lists them. -/
def bytesST44 : List Byte :=
  [0x52, 0x49, 0x46, 0x46, 0x2C, 0x00, 0x00, 0x00, 0x57, 0x41, 0x56, 0x45, 0x66, 0x6D, 0x74, 0x20, 0x10, 0x00,
   0x00, 0x00, 0x01, 0x00] ++
  [0x02, 0x00, 0x44, 0xAC, 0x00, 0x00, 0x10, 0xB1, 0x02, 0x00, 0x04, 0x00, 0x10, 0x00, 0x64, 0x61, 0x74, 0x61,
   0x08, 0x00, 0x00, 0x00]

/-- The bytes 00 01 02 … 2B of T1.3. -/
def countingBytes : List Byte := (List.range 44).map (BitVec.ofNat 8)

/-- A header and a sample buffer in a slot. -/
def put (k : SlotNo) (h : WaveHeader) (b : SampleBuffer) (s : State) : State := (s.setH k h).setSb k b

/-- The state a step or a command ends in, if it is a next state. -/
def after : Host.Outcome State Fault Refusal → Option State
  | .next t => some t
  | .fault _ => none
  | .refused _ => none

/-- Whether a command ends in a next state that meets a test. -/
def ends (i : Instr) (s : State) (p : State → Bool) : Bool := (after (exec i s)).any p

/-- A machine whose next host action is the given one. -/
def doing (a : HostAction) (s : State) : State := { s with script := [a], index := 0 }

/-- I16 elements from signed numbers. -/
def i16 (q : List Int) : SampleBuffer := .i16 (q.map u16)

/-- S2M's example E1: slot 0 holds ST44(8) and its samples. -/
def stereo : State := put 0 (wav 2 44100 16 8) (i16 [1000, 1000, -1000, 1000]) blank

/-- T4.1: slots 0 and 1 hold MO8(6) and their samples. -/
def monos : State := put 0 (wav 1 8000 16 6) (i16 [1, 2, 3]) (put 1 (wav 1 8000 16 6) (i16 [-1, -2, -3]) blank)

/-- The inputs of MSD: slot 1 holds PK44(8) and two packed words. -/
def packed : State := put 1 (wav 1 44100 32 8) (.u32 [0x7FFF7FFF, 0x80008000]) blank

/-! ## Decode: words of 95_test_vectors.md 2.1 to 2.7 -/

theorem test_decode_hdec : decode 0x13C0 = .ok (.hdec 3 3) := by decide -- T7.11
theorem test_decode_henc : decode 0x2300 = .ok (.henc 3 0) := by decide -- T1.10
theorem test_decode_d16 : decode 0x3240 = .ok (.d16 2 1) := by decide -- T2.7
theorem test_decode_e16 : decode 0x4100 = .ok (.e16 1 0) := by decide -- T2.19
theorem test_decode_d32 : decode 0x5240 = .ok (.d32 2 1) := by decide -- T2.14
theorem test_decode_e32 : decode 0x6140 = .ok (.e32 1 1) := by decide -- T2.14
theorem test_decode_s2mLeft : decode 0x8380 = .ok (.s2mLeft 3 2) := by decide -- P2
theorem test_decode_s2mRight : decode 0x8780 = .ok (.s2mRight 3 2) := by decide -- P2
theorem test_decode_s2mSum : decode 0x8900 = .ok (.s2mSum 1 0) := by decide -- E1
theorem test_decode_s2mDiff : decode 0x8EC0 = .ok (.s2mDiff 2 3) := by decide -- T7.12
theorem test_decode_m2s : decode 0x9060 = .ok (.m2s 0 1 2) := by decide -- T7.14
theorem test_decode_mse : decode 0xA100 = .ok (.mse 1 0) := by decide -- 2.5
theorem test_decode_msd : decode 0xB240 = .ok (.msd 2 1) := by decide -- T7.15

/-- The table's numbering: one 16-bit word; T7.13 and T7.4. -/
theorem test_decodeTableWord : decodeTableWord 16 0x93F0 = some (.m2s 3 3 3) ∧
    decodeTableWord 16 0xE000 = none := by decide

/-! ## WellFormed: one ill-formed term for each check -/

theorem test_illFormed_opc : (decode 0x0000).isOk = false ∧ wordWellFormed 0x0000 = false ∧
    wordWellFormed 0x7000 = false ∧ wordWellFormed 0xC000 = false ∧ wordWellFormed 0xFFFF = false := by decide -- T7.1 to T7.4
theorem test_illFormed_zero : decode 0x1001 = .error .zeroNotZero ∧ wordWellFormed 0x1001 = false := by decide -- T7.5
theorem test_illFormed_mode : decode 0x1400 = .error .modeNotZero ∧ wordWellFormed 0x1400 = false ∧
    decode 0x9400 = .error .modeNotZero ∧ wordWellFormed 0x9400 = false ∧
    decode 0xA400 = .error .modeNotZero ∧ wordWellFormed 0xA400 = false := by decide -- T7.6, T7.9, T7.10
theorem test_illFormed_rs2 : decode 0x1010 = .error .rs2NotZero ∧ wordWellFormed 0x1010 = false ∧
    decode 0x8010 = .error .rs2NotZero ∧ wordWellFormed 0x8010 = false := by decide -- T7.7, T7.8
/-- 00_scope.md R8: a multiple of 4, at most 4294967259, of which 4294967256 is the largest multiple. -/
theorem test_illFormed_capacity : pbMaxLegal 66 = false ∧ pbMaxLegal 4294967260 = false ∧
    pbMaxLegal 4294967256 = true ∧ pbMaxLegal 0 = true := by decide

/-! ## Each command, one step -/

/-- T1.3: every field at its offset. -/
theorem test_hdec_fields : ends (.hdec 0 0) (blank.setHb 0 countingBytes) (fun t =>
    (t.h 0).chunkId = ⟨0, 1, 2, 3⟩ ∧ (t.h 0).chunkSize = 0x07060504 ∧ (t.h 0).audioFormat = 0x1514 ∧
    (t.h 0).numChannels = 0x1716 ∧ (t.h 0).sampleRate = 0x1B1A1918 ∧ (t.h 0).byteRate = 0x1F1E1D1C ∧
    (t.h 0).blockAlign = 0x2120 ∧ (t.h 0).bitsPerSample = 0x2322 ∧ (t.h 0).subchunk2Id = ⟨0x24, 0x25, 0x26, 0x27⟩ ∧
    (t.h 0).subchunk2Size = 0x2B2A2928 ∧ t.hv 0 = true ∧ t.status = 0) = true := by decide

/-- T1.6: 43 bytes. -/
theorem test_hdec_truncated : ends (.hdec 2 0) (blank.setHb 0 (countingBytes.take 43)) (fun t =>
    t.status = 0x0201 ∧ t.hv 2 = false) = true := by decide

/-- T1.10: the 44 bytes of ST44(8), written over other bytes. -/
theorem test_henc_bytes : ends (.henc 3 0) (stereo.setHb 3 countingBytes) (fun t =>
    t.hb 3 = bytesST44 ∧ t.status = 0) = true := by decide

/-- T1.8: an invalid header register. -/
theorem test_henc_invalid : ends (.henc 0 0) blank (fun t => t.status = 0x4006 ∧ t.hb 0 = []) = true := by decide

/-- T2.2, T2.3, T2.5, T2.6 in one payload. -/
theorem test_d16_signs : ends (.d16 0 0)
    (blank.setPb 0 [0xFF, 0x7F, 0x00, 0x80, 0x34, 0x12, 0x18, 0xFC]) (fun t =>
    t.sb 0 = i16 [32767, -32768, 4660, -1000] ∧ t.status = 0) = true := by decide

/-- T2.9: three bytes. -/
theorem test_d16_misaligned : ends (.d16 0 0) (blank.setPb 0 [1, 2, 3]) (fun t =>
    t.status = 0x0402 ∧ t.sb 0 = .none) = true := by decide

/-- T2.7. -/
theorem test_e16_bytes : ends (.e16 1 1) (blank.setSb 1 (i16 [1000, -1000, -3, 32767, -32768])) (fun t =>
    t.pb 1 = [0xE8, 0x03, 0x18, 0xFC, 0xFD, 0xFF, 0xFF, 0x7F, 0x00, 0x80] ∧ t.status = 0) = true := by decide

/-- T2.17: a buffer of the other kind. -/
theorem test_e16_kind : ends (.e16 1 0) (blank.setSb 0 (.u32 [1])) (fun t =>
    t.status = 0x4006 ∧ t.pb 1 = []) = true := by decide

/-- T2.18. -/
theorem test_d32_words : ends (.d32 0 0)
    (blank.setPb 0 [0xE8, 0x03, 0x18, 0xFC, 0xFD, 0xFF, 0xFF, 0x7F]) (fun t =>
    t.sb 0 = .u32 [0xFC1803E8, 0x7FFFFFFD] ∧ t.status = 0) = true := by decide

/-- T2.13: six bytes, a multiple of 2 but not of 4. -/
theorem test_d32_misaligned : ends (.d32 0 0) (blank.setPb 0 [1, 2, 3, 4, 5, 6]) (fun t =>
    t.status = 0x0402 ∧ t.sb 0 = .none) = true := by decide

/-- T2.14. -/
theorem test_e32_bytes : ends (.e32 1 1) (blank.setSb 1 (.u32 [0x7FFF7FFF, 0x00010002, 0xFFFF8000])) (fun t =>
    t.pb 1 = [0xFF, 0x7F, 0xFF, 0x7F, 0x02, 0x00, 0x01, 0x00, 0x00, 0x80, 0xFF, 0xFF]) = true := by decide

/-- T2.16. -/
theorem test_e32_kind : ends (.e32 0 0) (blank.setSb 0 (i16 [1])) (fun t => t.status = 0x4006) = true := by decide

/-- T3.1, LEFT, and T3.2's dropped last element. -/
theorem test_s2mLeft : ends (.s2mLeft 1 0) stereo (fun t =>
      t.sb 1 = i16 [1000, -1000] ∧ t.h 1 = wav 1 44100 16 4 ∧ t.status = 0) = true ∧
    ends (.s2mLeft 1 0) (put 0 (wav 2 44100 16 6) (i16 [1, 2, 3]) blank) (fun t =>
      t.sb 1 = i16 [1] ∧ t.h 1 = wav 1 44100 16 2) = true := by decide

/-- T3.23 and T3.24: the largest sample rate whose byteRate fits, and the next. -/
theorem test_s2mLeft_range : ends (.s2mLeft 1 0) (put 0 (wav 2 0x7FFFFFFF 16 4) (i16 [1, 2]) blank) (fun t =>
      (t.h 1).byteRate = 4294967294 ∧ t.status = 0) = true ∧
    ends (.s2mLeft 1 0) (put 0 (wav 2 0x80000000 16 4) (i16 [1, 2]) blank) (fun t =>
      t.status = 0x8007 ∧ t.hv 1 = false ∧ t.sb 1 = .none) = true := by decide

/-- T3.1, RIGHT. -/
theorem test_s2mRight : ends (.s2mRight 1 0) stereo (fun t => t.sb 1 = i16 [1000, 1000]) = true := by decide

/-- T3.21: the header is tested before the sample buffer. -/
theorem test_s2mRight_order : ends (.s2mRight 1 0) (put 0 (wav 1 44100 32 8) .none blank) (fun t =>
    t.status = 0x0803) = true := by decide

/-- T3.6, T3.7, T3.8 and T3.10: floors and the extremes of the 17-bit sum. -/
theorem test_s2mSum : ends (.s2mSum 1 0)
    (put 0 (wav 2 44100 16 16) (i16 [-3, 0, 32767, 32767, -32768, -32768, -32768, 32767]) blank) (fun t =>
    t.sb 1 = i16 [-2, 32767, -32768, -1]) = true := by decide

/-- T3.25: in place, then again. -/
theorem test_s2mSum_twice : ends (.s2mSum 0 0) stereo (fun t =>
    t.sb 0 = i16 [1000, 0] ∧ t.h 0 = wav 1 44100 16 4 ∧ t.status = 0 ∧
    ends (.s2mSum 0 0) t (fun u => u.status = 0x0803 ∧ u.sb 0 = t.sb 0)) = true := by decide

/-- T3.5, T3.6, T3.9 and T3.10. -/
theorem test_s2mDiff : ends (.s2mDiff 1 0)
    (put 0 (wav 2 44100 16 16) (i16 [3, 0, -3, 0, 32767, -32768, -32768, 32767]) blank) (fun t =>
    t.sb 1 = i16 [1, -2, 32767, -32768]) = true := by decide

/-- T4.2: both mismatches, the shorter length, the left header. -/
theorem test_m2s_mismatch : ends (.m2s 2 0 1)
    (put 1 (wav 1 16000 16 4) (i16 [-1, -2]) (put 0 (wav 1 8000 16 6) (i16 [1, 2, 3]) blank)) (fun t =>
    t.sb 2 = i16 [1, -1, 2, -2] ∧ t.h 2 = wav 2 8000 16 8 ∧ t.status = 0x1030) = true := by decide

/-- T4.8 and T4.10: a fault after the comparison, and 17 elements where 16 fit. -/
theorem test_m2s_faults : ends (.m2s 2 0 1)
      (put 1 (wav 1 16000 16 2) .none (put 0 (wav 1 8000 16 4) (i16 [1, 2]) blank)) (fun t =>
      t.status = 0x5036 ∧ t.hv 2 = false) = true ∧
    ends (.m2s 1 0 0) (put 0 (wav 1 8000 16 34) (.i16 (List.replicate 17 5)) blank) (fun t =>
      t.status = 0x8007 ∧ t.sb 1 = .none) = true := by decide

/-- T5.1, T5.5, T5.8. -/
theorem test_mse : ends (.mse 1 0)
    (put 0 (wav 2 44100 16 16) (i16 [1000, -1000, -3, 32767, -32768, 32767, 4660, 22136]) blank) (fun t =>
    t.sb 1 = .u32 [0xFC1803E8, 0x7FFFFFFD, 0x7FFF8000, 0x56781234] ∧ t.h 1 = wav 1 44100 32 16) = true := by decide

/-- 2.5: the largest sample rate whose byteRate fits, and the next. -/
theorem test_mse_range : ends (.mse 1 0) (put 0 (wav 2 0x3FFFFFFF 16 4) (i16 [1, 2]) blank) (fun t =>
      (t.h 1).byteRate = 4294967292 ∧ t.status = 0) = true ∧
    ends (.mse 1 0) (put 0 (wav 2 0x40000000 16 4) (i16 [1, 2]) blank) (fun t => t.status = 0x8007) = true := by
  decide

/-- T6.1, T6.5, T6.9, T6.12, T6.14. -/
theorem test_msd : ends (.msd 2 1)
    (put 1 (wav 1 44100 32 20) (.u32 [0x7FFF7FFF, 0x80007FFF, 0x00010003, 0x8000FFFF, 0xC000C000]) blank)
    (fun t => t.sb 2 = i16 [32767, 0, -1, -32768, 4, -2, -32768, -32767, -32768, 0] ∧
      t.h 2 = wav 2 44100 16 20 ∧ t.status = 0) = true := by decide

/-- 2.6: PK44(4) with an I16 buffer. -/
theorem test_msd_kind : ends (.msd 2 1) (put 1 (wav 1 44100 32 4) (i16 [1]) blank) (fun t =>
    t.status = 0x4006 ∧ t.hv 2 = false) = true := by decide

/-! ## Host actions and steps -/

/-- T7.1 and T8.10: a reserved word, through `step`. -/
theorem test_step_reserved : (after (step (doing (.cmd 0x0000) blank))).any (fun t =>
    t.status = 0x2005 ∧ t.index = 1) = true := by decide

/-- `withFetchWord` right after reset: HENC on the invalid header of reset raises InvalidOperand (T1.8), and D16
decodes the empty payload (T2.8). -/
theorem test_step_fetchWord : (after (step (State.reset.withFetchWord 16 0x2000))).any (fun t =>
      t.status = 0x4006 ∧ t.index = 1) = true ∧
    (after (step (State.reset.withFetchWord 16 0x3000))).any (fun t =>
      t.status = 0 ∧ t.sb 0 = .i16 []) = true := by decide

/-- R71: the file is split after 44 bytes; and 44 + PB_MAX is the longest file. -/
theorem test_load : (after (step (doing (.load 0 (countingBytes ++ [7, 8])) blank))).any (fun t =>
      t.hb 0 = countingBytes ∧ t.pb 0 = [7, 8]) = true ∧
    (after (step (doing (.load 0 (List.replicate 108 1)) blank))).isSome = true ∧
    step (doing (.load 0 (List.replicate 109 1)) blank) = .refused .loadTooLong := ⟨by decide, by decide, rfl⟩

/-- R72: a store returns header bytes, then payload bytes. -/
theorem test_store : (after (step (doing (.store 3) ((blank.setHb 3 [1, 2]).setPb 3 [3])))).any (fun t =>
    t.replies = [.file [1, 2, 3]]) = true := by decide

/-- R18: the run ends with its list. -/
theorem test_runEnds : step blank = .fault .runEnded := rfl

/-- R88. -/
theorem test_assemble : assembleLine "M2S s0, s1, s2 ; R88" = some (.m2s 0 1 2) ∧
    commandText (.s2mSum 1 0) = "S2M.SUM s1, s0" := by decide

/-! ## Witnesses: a state and operands that meet each statement's hypotheses, clause by clause -/

theorem witness_OnlyItsOwnWordDecodesToACommand : decode 0x93F0 = .ok (.m2s 3 3 3) := by decide

theorem witness_AcceptedWordsAreTheTableRows :
    decode 0x93F0 = .ok (.m2s 3 3 3) ∧ ⟨0x9000, 0xFC0F⟩ ∈ opcodeRows ∧
    OpcodeRow.covers ⟨0x9000, 0xFC0F⟩ 0x93F0 = true := by decide

/-- A text of the first clause, the destination first, and a text of R88's table. -/
theorem witness_WrittenFormAssembles :
    assembleLine "HDEC s3, s1" = some (.hdec 3 1) ∧ assembleLine "HDEC s3, s1;note" = some (.hdec 3 1) ∧
    (assembleLine "M2S s2, s0, s1").map encode = some 0x9210 := by decide

theorem witness_ReservedWordRaisesIllegalCommand :
    nextAction (doing (.cmd 0x1001) blank) = some (.cmd 0x1001) ∧
    ∀ r ∈ opcodeRows, r.covers 0x1001 = false := by decide

theorem witness_StepRunsTheDecodedCommand :
    nextAction (doing (.cmd 0x8900) stereo) = some (.cmd 0x8900) ∧ decode 0x8900 = .ok (.s2mSum 1 0) := by decide

theorem witness_StepMovesTheIndexByOne : ∃ t, step (doing (.cmd 0x8900) stereo) = .next t := ⟨_, rfl⟩

theorem witness_StepKeepsCapacityAndReplies :
    ∃ t, step { doing .status stereo with replies := [.status 0] } = .next t := ⟨_, rfl⟩

/-- Both ways a step gives no next state. -/
theorem witness_OnlyTheEndAndAnOverlongLoadStop :
    step blank = .fault .runEnded ∧ nextAction blank = none ∧
    step (doing (.load 2 (List.replicate 109 0)) blank) = .refused .loadTooLong ∧
    44 + blank.pbMax < (List.replicate 109 (0 : Byte)).length := ⟨rfl, rfl, rfl, by decide⟩

theorem witness_OnlyAnOverlongLoadHasNoStep :
    step (doing (.load 2 (List.replicate 109 0)) blank) = .refused .loadTooLong := rfl

/-- Below 44 bytes, at 44, at the longest file and above it. -/
theorem witness_HostLoadSplitsTheFile :
    (∀ n ∈ [0, 43, 44, 108, 109],
      nextAction (doing (.load 2 (List.replicate n 0)) blank) = some (.load 2 (List.replicate n 0))) ∧
    (∀ n ∈ [0, 43, 44, 108], (List.replicate n (0 : Byte)).length ≤ 44 + blank.pbMax) ∧
    44 + blank.pbMax < (List.replicate 109 (0 : Byte)).length := by decide

theorem witness_HostStoreReturnsTheFile : nextAction (doing (.store 3) stereo) = some (.store 3) := by decide

theorem witness_HostStatusReturnsStatus : nextAction (doing .status stereo) = some .status := by decide

theorem witness_ResetActionClearsTheBlock : nextAction (doing .reset stereo) = some .reset := by decide

theorem witness_CapacityIsAnyLegalNumber : pbMaxLegal 0 = true ∧ pbMaxLegal 4294967256 = true := by decide

theorem witness_StepKeepsTheInvariant :
    (doing (.cmd 0x8900) stereo).Inv ∧ ∃ t, step (doing (.cmd 0x8900) stereo) = .next t := ⟨by decide, _, rfl⟩

theorem witness_OnlyResetClears :
    let s := (doing (.cmd 0x8900) stereo).setStatus 0x8200
    (∃ t, step s = .next t) ∧ nextAction s ≠ some .reset ∧ s.hv 0 = true ∧ (s.sb 0).kind ≠ .none ∧
    s.status.getLsbD 9 = true ∧ s.status.getLsbD 15 = true := ⟨⟨_, rfl⟩, by decide⟩

/-- M2S with its comparison reached (T4.1), and not (T4.6); a fault, whose code is not 0 (T4.6, T7.2). -/
theorem witness_StatusUpdateOfEveryCommand :
    decode 0x9210 = .ok (.m2s 2 0 1) ∧ monos.hv 0 = true ∧ monos.hv 1 = true ∧
    (monos.h 0).numChannels = 1 ∧ (monos.h 1).numChannels = 1 ∧ (monos.h 0).bitsPerSample = 16 ∧
    (monos.h 1).bitsPerSample = 16 ∧ wordFaultCode 0x9210 monos = 0 ∧ blank.hv 0 = false ∧
    wordFaultCode 0x9210 blank = 6 ∧ wordFaultCode 0xFFFF blank = 5 := by decide

theorem witness_FaultChangesNothingButStatus :
    (∃ t, hostCmd 0x2000 blank = .next t ∧ statusErr t.status ≠ 0) ∧
    ∃ t, hostCmd 0xFFFF blank = .next t ∧ statusErr t.status ≠ 0 := ⟨⟨_, rfl, by decide⟩, _, rfl, by decide⟩

theorem witness_RetryFaultsAgain :
    ∃ t, hostCmd 0x9210 stereo = .next t ∧ statusErr t.status ≠ 0 := ⟨_, rfl, by decide⟩

/-- Two states that differ in everything M2S does not read. -/
theorem witness_OutcomeDependsOnlyOnWhatIsRead :
    let s' := (monos.setPb 0 [1]).setStatus 0xFE00
    agreeOnReads (.m2s 2 0 1) monos s' ∧ monos ≠ s' ∧ (∃ t, exec (.m2s 2 0 1) s' = .next t) ∧
    ∃ t, exec (.m2s 2 0 1) monos = .next t ∧ statusErr t.status = 0 :=
  ⟨⟨by decide, by decide, by decide, by decide, by decide⟩, by decide, ⟨_, rfl⟩, _, rfl, by decide⟩

theorem witness_DestinationMayBeASource :
    (∃ t, exec (.m2s 2 0 1) monos = .next t ∧ statusErr t.status = 0) ∧
    ∃ t, exec (withDest (.m2s 2 0 1) 1) monos = .next t := ⟨⟨_, rfl, by decide⟩, _, rfl⟩

theorem witness_CommandIsIdempotent :
    destOf (.m2s 2 0 1) ∉ sourcesOf (.m2s 2 0 1) ∧ ∃ t, exec (.m2s 2 0 1) monos = .next t := ⟨by decide, _, rfl⟩

theorem witness_SumInPlaceIsNotIdempotent :
    ∃ t, exec (.s2mSum 0 0) stereo = .next t ∧ statusErr t.status = 0 := ⟨_, rfl, by decide⟩

theorem witness_HdecReadsTheFields :
    44 ≤ ((blank.setHb 0 countingBytes).hb 0).length ∧
    ((blank.setHb 0 (countingBytes.take 43)).hb 0).length < 44 := by decide

theorem witness_HencWritesTheBytes : stereo.hv 0 = true ∧ stereo.hv 1 = false := by decide

theorem witness_HeaderRoundTrips :
    stereo.hv 0 = true ∧ ((blank.setHb 0 countingBytes).hb 0).length = 44 := by decide

theorem witness_HdecFrame : ∃ t, exec (.hdec 1 0) (blank.setHb 0 countingBytes) = .next t := ⟨_, rfl⟩

theorem witness_HencFrame : ∃ t, exec (.henc 1 0) stereo = .next t := ⟨_, rfl⟩

/-- Both parities, the empty payload included. -/
theorem witness_D16ReadsSignedSamples :
    (blank.pb 0).length % 2 = 0 ∧ ((blank.setPb 0 [0x18, 0xFC]).pb 0).length % 2 = 0 ∧
    ((blank.setPb 0 [7]).pb 0).length % 2 ≠ 0 := by decide

theorem witness_E16WritesSignedSamples :
    stereo.sb 0 = i16 [1000, 1000, -1000, 1000] ∧ (stereo.sb 1).kind ≠ .i16 ∧ (packed.sb 1).kind ≠ .i16 := by decide

theorem witness_D32ReadsUnsignedWords :
    ((blank.setPb 0 [1, 2, 3, 0xFF]).pb 0).length % 4 = 0 ∧ ((blank.setPb 0 [1, 2]).pb 0).length % 4 ≠ 0 := by decide

theorem witness_E32WritesUnsignedWords :
    packed.sb 1 = .u32 [0x7FFF7FFF, 0x80008000] ∧ (packed.sb 0).kind ≠ .u32 ∧ (stereo.sb 0).kind ≠ .u32 := by decide

theorem witness_SampleRoundTrips :
    stereo.sb 0 = i16 [1000, 1000, -1000, 1000] ∧ packed.sb 1 = .u32 [0x7FFF7FFF, 0x80008000] ∧
    ((blank.setPb 0 [1, 2]).pb 0).length % 2 = 0 ∧ ((blank.setPb 0 [1, 2, 3, 4]).pb 0).length % 4 = 0 := by decide

theorem witness_BothDecodersSeeTheSameBytes : ((blank.setPb 0 [1, 2, 3, 0xFF]).pb 0).length % 4 = 0 := by decide

theorem witness_SampleDecodersFrame :
    (∃ t, exec (.d16 1 0) (blank.setPb 0 [1, 2]) = .next t) ∧
    ∃ t, exec (.d32 1 0) (blank.setPb 0 [1, 2, 3, 4]) = .next t := ⟨⟨_, rfl⟩, _, rfl⟩

theorem witness_SampleEncodersFrame :
    (∃ t, exec (.e16 1 0) stereo = .next t) ∧ ∃ t, exec (.e32 0 1) packed = .next t := ⟨⟨_, rfl⟩, _, rfl⟩

/-- An odd buffer and the largest sample rate; the same state serves both halves of the statement. -/
theorem witness_S2mKeepsOneChannel :
    let s := put 0 (wav 2 0x7FFFFFFF 16 6) (i16 [1, 2, 3]) blank
    s.Inv ∧ s.hv 0 = true ∧ (s.h 0).numChannels = 2 ∧ (s.h 0).bitsPerSample = 16 ∧ s.sb 0 = i16 [1, 2, 3] ∧
    (s.h 0).sampleRate.toNat < 2 ^ 31 := by decide

theorem witness_S2mHalvesSumAndDifference :
    stereo.Inv ∧ stereo.hv 0 = true ∧ (stereo.h 0).numChannels = 2 ∧ (stereo.h 0).bitsPerSample = 16 ∧
    stereo.sb 0 = i16 [1000, 1000, -1000, 1000] ∧ (stereo.h 0).sampleRate.toNat < 2 ^ 31 := by decide

/-- T3.19, T3.17 and T3.18, T3.20, T3.24. -/
theorem witness_S2mFaultsInOrder :
    let s1 := put 0 (wav 1 44100 16 4) (i16 [1, 2]) blank
    let s2 := put 0 (wav 2 44100 8 4) (i16 [1, 2]) blank
    let s3 := put 0 (wav 2 8000 16 4) (.u32 [7]) blank
    let s4 := put 0 (wav 2 0x80000000 16 4) (i16 [1, 2]) blank
    Instr.s2mLeft 1 0 ∈ [.s2mLeft 1 0, .s2mRight 1 0, .s2mSum 1 0, .s2mDiff 1 0] ∧
    blank.hv 0 = false ∧
    (s1.hv 0 = true ∧ ¬((s1.h 0).numChannels = 2 ∧ (s1.h 0).bitsPerSample = 16)) ∧
    (s2.hv 0 = true ∧ ¬((s2.h 0).numChannels = 2 ∧ (s2.h 0).bitsPerSample = 16)) ∧
    (s3.hv 0 = true ∧ (s3.h 0).numChannels = 2 ∧ (s3.h 0).bitsPerSample = 16 ∧ (s3.sb 0).kind ≠ .i16) ∧
    (s4.hv 0 = true ∧ (s4.h 0).numChannels = 2 ∧ (s4.h 0).bitsPerSample = 16 ∧ (s4.sb 0).kind = .i16 ∧
      2 ^ 31 ≤ (s4.h 0).sampleRate.toNat) := by decide

/-- T4.11's 16 elements, which fill the capacity, at the largest sample rate. -/
theorem witness_M2sInterleaves :
    let q := List.replicate 16 (5 : Half)
    let s := put 0 (wav 1 0x3FFFFFFF 16 32) (.i16 q) (put 1 (wav 1 8000 16 32) (.i16 q) blank)
    s.Inv ∧ s.hv 0 = true ∧ s.hv 1 = true ∧ (s.h 0).numChannels = 1 ∧ (s.h 1).numChannels = 1 ∧
    (s.h 0).bitsPerSample = 16 ∧ (s.h 1).bitsPerSample = 16 ∧ s.sb 0 = .i16 q ∧ s.sb 1 = .i16 q ∧
    4 * min q.length q.length ≤ s.pbMax ∧ (s.h 0).sampleRate.toNat < 2 ^ 30 := by decide

/-- T4.6, T4.7, T4.8, T4.10 and T4.9. -/
theorem witness_M2sFaultsInOrder :
    let mono := fun h b => put 0 h b (put 1 (wav 1 8000 16 4) (i16 [1, 2]) blank)
    let s1 := mono (wav 2 8000 16 4) (i16 [1, 2])
    let s2 := mono (wav 1 16000 16 2) .none
    let s3 := put 0 (wav 1 8000 16 34) (.i16 (List.replicate 17 5)) blank
    let s4 := mono (wav 1 0x40000000 16 4) (i16 [1, 2])
    (blank.hv 0 = false ∨ blank.hv 1 = false) ∧
    (s1.hv 0 = true ∧ s1.hv 1 = true ∧ (s1.h 0).numChannels ≠ 1) ∧
    (s2.hv 0 = true ∧ s2.hv 1 = true ∧ (s2.h 0).numChannels = 1 ∧ (s2.h 1).numChannels = 1 ∧
      (s2.h 0).bitsPerSample = 16 ∧ (s2.h 1).bitsPerSample = 16 ∧ (s2.sb 0).kind ≠ .i16) ∧
    (s3.hv 0 = true ∧ (s3.h 0).numChannels = 1 ∧ (s3.h 0).bitsPerSample = 16 ∧
      s3.sb 0 = .i16 (List.replicate 17 5) ∧ s3.pbMax < 4 * min 17 17) ∧
    (s4.hv 0 = true ∧ s4.hv 1 = true ∧ (s4.h 0).numChannels = 1 ∧ (s4.h 1).numChannels = 1 ∧
      (s4.h 0).bitsPerSample = 16 ∧ (s4.h 1).bitsPerSample = 16 ∧ s4.sb 0 = i16 [1, 2] ∧ s4.sb 1 = i16 [1, 2] ∧
      2 ^ 30 ≤ (s4.h 0).sampleRate.toNat) := by decide

theorem witness_DupCopiesToBothChannels :
    ∃ t, runCommands (expandPseudo (.dup 1 0)) monos = .next t ∧ statusErr t.status = 0 := ⟨_, rfl, by decide⟩

/-- Inputs of one length, and inputs of two lengths (P2). -/
theorem witness_ChannelsRoundTrip :
    let s := put 0 (wav 1 8000 16 6) (i16 [1, 2, 3]) (put 1 (wav 1 16000 16 4) (i16 [-1, -2]) blank)
    (monos.Inv ∧ monos.hv 0 = true ∧ monos.hv 1 = true ∧ (monos.h 0).numChannels = 1 ∧
      (monos.h 1).numChannels = 1 ∧ (monos.h 0).bitsPerSample = 16 ∧ (monos.h 1).bitsPerSample = 16 ∧
      monos.sb 0 = i16 [1, 2, 3] ∧ monos.sb 1 = i16 [-1, -2, -3] ∧ 4 * min 3 3 ≤ monos.pbMax ∧
      (monos.h 0).sampleRate.toNat < 2 ^ 30) ∧
    (s.Inv ∧ s.hv 0 = true ∧ s.hv 1 = true ∧ (s.h 0).numChannels = 1 ∧ (s.h 1).numChannels = 1 ∧
      (s.h 0).bitsPerSample = 16 ∧ (s.h 1).bitsPerSample = 16 ∧ s.sb 0 = i16 [1, 2, 3] ∧
      s.sb 1 = i16 [-1, -2] ∧ 4 * min 3 2 ≤ s.pbMax ∧ (s.h 0).sampleRate.toNat < 2 ^ 30) := by decide

/-- T5.9's odd buffer, at the largest sample rate. -/
theorem witness_MsePacksPairs :
    let s := put 0 (wav 2 0x3FFFFFFF 16 6) (i16 [5, 6, 7]) blank
    s.Inv ∧ s.hv 0 = true ∧ (s.h 0).numChannels = 2 ∧ (s.h 0).bitsPerSample = 16 ∧ s.sb 0 = i16 [5, 6, 7] ∧
    (s.h 0).sampleRate.toNat < 2 ^ 30 := by decide

theorem witness_MsdUnpacksWithSaturation :
    packed.Inv ∧ packed.hv 1 = true ∧ (packed.h 1).numChannels = 1 ∧ (packed.h 1).bitsPerSample = 32 ∧
    packed.sb 1 = .u32 [0x7FFF7FFF, 0x80008000] ∧ (packed.h 1).sampleRate.toNat < 2 ^ 30 := by decide

/-- The faults listed at the end of 2.5 and of 2.6. -/
theorem witness_PackedFaultsInOrder :
    let e1 := put 0 (wav 1 44100 16 4) (i16 [1, 2]) blank
    let e2 := put 0 (wav 2 44100 16 4) (.u32 [7]) blank
    let e3 := put 0 (wav 2 0x40000000 16 4) (i16 [1, 2]) blank
    let d1 := put 0 (wav 2 44100 16 4) (.u32 [7]) blank
    let d2 := put 0 (wav 1 44100 32 4) (i16 [1, 2]) blank
    let d3 := put 0 (wav 1 0x40000000 32 4) (.u32 [7]) blank
    blank.hv 0 = false ∧
    (e1.hv 0 = true ∧ ¬((e1.h 0).numChannels = 2 ∧ (e1.h 0).bitsPerSample = 16)) ∧
    (e2.hv 0 = true ∧ (e2.h 0).numChannels = 2 ∧ (e2.h 0).bitsPerSample = 16 ∧ (e2.sb 0).kind ≠ .i16) ∧
    (e3.hv 0 = true ∧ (e3.h 0).numChannels = 2 ∧ (e3.h 0).bitsPerSample = 16 ∧ (e3.sb 0).kind = .i16 ∧
      2 ^ 30 ≤ (e3.h 0).sampleRate.toNat) ∧
    (d1.hv 0 = true ∧ ¬((d1.h 0).numChannels = 1 ∧ (d1.h 0).bitsPerSample = 32)) ∧
    (d2.hv 0 = true ∧ (d2.h 0).numChannels = 1 ∧ (d2.h 0).bitsPerSample = 32 ∧ (d2.sb 0).kind ≠ .u32) ∧
    (d3.hv 0 = true ∧ (d3.h 0).numChannels = 1 ∧ (d3.h 0).bitsPerSample = 32 ∧ (d3.sb 0).kind = .u32 ∧
      2 ^ 30 ≤ (d3.h 0).sampleRate.toNat) := by decide

theorem witness_MsdAfterMseIsNotTheIdentity :
    stereo.Inv ∧ stereo.hv 0 = true ∧ (stereo.h 0).numChannels = 2 ∧ (stereo.h 0).bitsPerSample = 16 ∧
    stereo.sb 0 = i16 [1000, 1000, -1000, 1000] ∧ (stereo.h 0).sampleRate.toNat < 2 ^ 30 := by decide

theorem witness_PackedPayloadIsTheStereoPayload :
    let s := put 0 (wav 2 44100 16 6) (i16 [5, 6, 7]) blank
    s.hv 0 = true ∧ (s.h 0).numChannels = 2 ∧ (s.h 0).bitsPerSample = 16 ∧ s.sb 0 = i16 [5, 6, 7] ∧
    (s.h 0).sampleRate.toNat < 2 ^ 30 := by decide

theorem witness_DerivedFieldsHoldAfterTransform :
    isTransform (.msd 2 1) = true ∧ packed.Inv ∧
    ∃ t, exec (.msd 2 1) packed = .next t ∧ statusErr t.status = 0 := ⟨by decide, by decide, _, rfl, by decide⟩

theorem witness_TransformsFrame :
    (∃ d a b, Instr.m2s 2 0 1 ∈
      [.s2mLeft d a, .s2mRight d a, .s2mSum d a, .s2mDiff d a, .mse d a, .msd d a, .m2s d a b]) ∧
    ∃ t, exec (.m2s 2 0 1) monos = .next t := ⟨⟨2, 0, 1, by decide⟩, _, rfl⟩

/-- P1's file. -/
theorem witness_FileConversionToMono :
    let s := (blank.setHb 0 bytesST44).setPb 0 [0xE8, 0x03, 0xE8, 0x03, 0x18, 0xFC, 0xE8, 0x03]
    s.Inv ∧ (s.hb 0).length = 44 ∧ (s.pb 0).length % 2 = 0 ∧ (unpackHeader (s.hb 0)).numChannels = 2 ∧
    (unpackHeader (s.hb 0)).bitsPerSample = 16 ∧ (unpackHeader (s.hb 0)).sampleRate.toNat < 2 ^ 31 := by decide

end Sys2Proof.Tests
end

section
/-!
PROOFS for the family of 00_scope.md: the capacity and the floor (R8, R12), what a host action leaves alone, when a
step has no next state (R18), the invariant, and the destination slot (R14).
-/
namespace Sys2Proof.Machine

/-! ### The numbers of 00_scope.md: the capacity (R8) and the floor (R12) -/

/-- Every capacity that a number selects is a legal one (R8). -/
theorem pbMaxLegal_pbMaxOf (n : Nat) : pbMaxLegal (Config.pbMaxOf n) = true := by
  rw [pbMaxLegal_iff, Config.pbMaxOf, Config.pbMaxBound]
  omega

/-- A legal capacity is selected by its number of four-byte words. -/
theorem pbMaxOf_div_four {m : Nat} (hm : pbMaxLegal m = true) : Config.pbMaxOf (m / 4) = m := by
  obtain ⟨hmul, hle⟩ := (pbMaxLegal_iff m).1 hm
  rw [Config.pbMaxBound] at hle
  rw [Config.pbMaxOf, Config.pbMaxBound]
  omega

/-- Settles O17: the capacity at reset is `pbMaxOf` of the open choice, and `pbMaxOf` runs through the legal numbers. -/
theorem capacityIsAnyLegalNumber : Obligations.CapacityIsAnyLegalNumber :=
  ⟨pbMaxLegal_pbMaxOf Config.pbMaxChoice, pbMaxLegal_pbMaxOf, fun m hm => ⟨m / 4, pbMaxOf_div_four hm⟩⟩

/-- The remainder that R12's formula takes away is the one of the division that rounds down. -/
theorem tmod_add_tmod_self {b : Int} (a : Int) (hb : 0 < b) : (a.tmod b + b).tmod b = a % b := by
  have hnonneg : 0 ≤ a.tmod b + b := by have := Int.lt_tmod_of_pos a hb; omega
  rw [Int.tmod_eq_emod_of_nonneg hnonneg, Int.add_emod_right, Int.tmod_def, Int.sub_mul_emod_self_left]

/-- R12's formula for languages whose division truncates is the division that rounds down, for every positive
divisor. -/
theorem floorDivTruncating_eq_ediv {b : Int} (a : Int) (hb : 0 < b) : floorDivTruncating a b = a / b := by
  have hsub : a - a % b = b * (a / b) := by have := Int.emod_add_mul_ediv a b; omega
  rw [floorDivTruncating, tmod_add_tmod_self a hb, hsub, Int.mul_tdiv_cancel_left _ hb.ne']

/-- Settles O46: `floor2` is Lean's division by 2, which rounds down. -/
theorem floorHalvingIsTheFloor : Obligations.FloorHalvingIsTheFloor := by
  intro x
  refine ⟨?_, fun q hq => ?_, floorDivTruncating_eq_ediv x two_pos⟩
  · rw [floor2]; omega
  · rw [floor2]; omega

/-! ### What a host action leaves alone -/

/-- The fields that no host action changes, and the replies, which only grow. -/
def SameRun (s u : State) : Prop :=
  u.pbMax = s.pbMax ∧ u.script = s.script ∧ u.index = s.index ∧ s.replies <+: u.replies

theorem sameRun_of_eq {s u : State} (hp : u.pbMax = s.pbMax) (hs : u.script = s.script) (hi : u.index = s.index)
    (hr : u.replies = s.replies) : SameRun s u :=
  ⟨hp, hs, hi, [], by rw [hr, List.append_nil]⟩

theorem sameRun_reply (s : State) (r : HostReply) : SameRun s (s.reply r) := ⟨rfl, rfl, rfl, [r], rfl⟩

theorem exec_sameRun {i : Instr} {s t : State} (h : exec i s = .next t) : SameRun s t := by
  obtain ⟨adv, -, ⟨f, rfl⟩ | ⟨u, hw, rfl⟩⟩ := exec_next h
  · exact sameRun_of_eq rfl rfl rfl rfl
  · obtain ⟨-, hp, hs, hi, hr⟩ := hw.rest
    exact sameRun_of_eq hp hs hi hr

theorem performAction_sameRun {act : HostAction} {s u : State} (h : performAction act s = .next u) :
    SameRun s u := by
  cases act with
  | reset => cases h; exact sameRun_of_eq rfl rfl rfl rfl
  | load k q =>
    obtain ⟨-, rfl⟩ := hostLoad_next h
    exact sameRun_of_eq rfl rfl rfl rfl
  | cmd w =>
    obtain ⟨i, -, hi⟩ | ⟨e, -, rfl⟩ := hostCmd_next h
    · exact exec_sameRun hi
    · exact sameRun_of_eq rfl rfl rfl rfl
  | status => cases h; exact sameRun_reply ..
  | store k => cases h; exact sameRun_reply ..

/-- Settles O9: a step is a host action and a move of the index. -/
theorem stepKeepsCapacityAndReplies : Obligations.StepKeepsCapacityAndReplies := by
  intro s t h
  obtain ⟨act, u, -, hu, rfl⟩ := step_next h
  obtain ⟨hp, -, -, hr⟩ := performAction_sameRun hu
  exact ⟨hp, hr⟩

/-! ### When a host action has no next state -/

/-- R250: a command has a next state in every state. -/
theorem exec_ends (i : Instr) (s : State) : ∃ t, exec i s = .next t := by
  obtain ⟨adv, -, ⟨f, hf⟩ | ⟨u, hu, -⟩⟩ := exec_shape i s
  · exact ⟨_, hf⟩
  · exact ⟨_, hu⟩

theorem hostCmd_ends (w : Half) (s : State) : ∃ t, hostCmd w s = .next t := by
  unfold hostCmd
  split
  · exact exec_ends _ s
  · exact ⟨_, rfl⟩

/-- `act` is a load of more than 44 + PB_MAX bytes, to which R71 gives no step. -/
def OverlongLoad (act : HostAction) (s : State) : Prop := ∃ k q, act = .load k q ∧ 44 + s.pbMax < q.length

theorem performAction_overlong {act : HostAction} {s : State} (h : OverlongLoad act s) :
    performAction act s = .refused .loadTooLong := by
  obtain ⟨k, q, rfl, hq⟩ := h
  simp [performAction, hostLoad, hq]

/-- Every other host action has a next state. -/
theorem performAction_ends {act : HostAction} {s : State} (h : ¬OverlongLoad act s) :
    ∃ u, performAction act s = .next u := by
  cases act with
  | reset => exact ⟨_, rfl⟩
  | load k q =>
    have hq : ¬44 + s.pbMax < q.length := fun hq => h ⟨k, q, rfl, hq⟩
    exact ⟨(s.setHb k (q.take 44)).setPb k (q.drop 44), by simp [performAction, hostLoad, hq]⟩
  | cmd w => exact hostCmd_ends w s
  | status => exact ⟨_, rfl⟩
  | store k => exact ⟨_, rfl⟩

/-- The three things a step can do: fault at the end of the list, refuse an overlong load, or have a next state. -/
theorem step_cases (s : State) :
    (nextAction s = none ∧ step s = .fault .runEnded) ∨
    ∃ act, nextAction s = some act ∧
      ((OverlongLoad act s ∧ step s = .refused .loadTooLong) ∨
        (¬OverlongLoad act s ∧ ∃ t, step s = .next t)) := by
  cases hact : nextAction s with
  | none => exact .inl ⟨rfl, by simp [step, runNext, hact]⟩
  | some act =>
    refine .inr ⟨act, rfl, ?_⟩
    by_cases ho : OverlongLoad act s
    · exact .inl ⟨ho, by simp [step, runNext, hact, performAction_overlong ho, advanced]⟩
    · obtain ⟨u, hu⟩ := performAction_ends ho
      exact .inr ⟨ho, u.advance, by simp [step, runNext, hact, hu, advanced]⟩

/-- Settles O10: the three cases of `step_cases` exclude each other. -/
theorem onlyTheEndAndAnOverlongLoadStop : Obligations.OnlyTheEndAndAnOverlongLoadStop := by
  intro s
  obtain ⟨hact, hs⟩ | ⟨act, hact, ⟨⟨k, q, rfl, hq⟩, hs⟩ | ⟨ho, t, hs⟩⟩ := step_cases s
  · simp [hact, hs]
  · simp [hact, hs, hq]
  · refine ⟨by simp [hact, hs], iff_of_false (fun h => h t hs) ?_⟩
    rintro (h | ⟨k, q, h, hq⟩)
    · simp [hact] at h
    · exact ho ⟨k, q, Option.some.inj (hact.symm.trans h), hq⟩

/-! ### The invariant -/

/-- The part of the invariant that a host action keeps by itself: what the buffers and STATUS hold. -/
def Sound (s : State) : Prop := Memory.wf s = true ∧ samplesFit s = true ∧ statusLegal s.status = true

theorem samplesFit_of_sb {s u : State} (hs : samplesFit s = true) (hsb : ∀ k, u.sb k = s.sb k)
    (hp : u.pbMax = s.pbMax) : samplesFit u = true := by
  rw [samplesFit_iff] at *
  simpa [hsb, hp] using hs

/-- The STATUS update of R205 leaves a legal word, so the end of a command leaves sound what it finds sound. -/
theorem sound_statusAfter {u : State} (hm : Memory.wf u = true) (hf : samplesFit u = true) (old : Half)
    (fault : Option FaultCode) (adv : Advisory) : Sound (u.setStatus (statusAfter old fault adv)) :=
  ⟨setStatus_memory_wf hm _, hf, statusLegal_statusAfter old fault adv⟩

theorem exec_sound {i : Instr} {s t : State} (hs : Sound s) (h : exec i s = .next t) : Sound t := by
  obtain ⟨hm, hf, -⟩ := hs
  obtain ⟨adv, -, ⟨f, rfl⟩ | ⟨u, hw, rfl⟩⟩ := exec_next h
  · exact sound_statusAfter hm hf _ _ _
  · obtain ⟨hm', hf'⟩ := hw.fits hm hf
    exact sound_statusAfter hm' hf' _ _ _

theorem hostCmd_sound {w : Half} {s t : State} (hs : Sound s) (h : hostCmd w s = .next t) : Sound t := by
  obtain ⟨i, -, hi⟩ | ⟨e, -, rfl⟩ := hostCmd_next h
  · exact exec_sound hs hi
  · obtain ⟨hm, hf, -⟩ := hs
    rw [show (5 : Nat) = FaultCode.illegalCommand.code from rfl, ← statusAfter_fault]
    exact sound_statusAfter hm hf _ _ _

theorem performAction_sound {act : HostAction} {s u : State} (hs : Sound s) (h : performAction act s = .next u) :
    Sound u := by
  cases act with
  | reset =>
    cases h
    refine ⟨blockReset_memory_wf s, by simp [samplesFit_iff, SampleBuffer.byteSize], ?_⟩
    rw [blockReset_status]
    decide
  | load k q =>
    obtain ⟨hm, hf, hst⟩ := hs
    have hm' := hostLoad_memory_wf hm h
    obtain ⟨-, rfl⟩ := hostLoad_next h
    exact ⟨hm', samplesFit_of_sb hf (by simp) rfl, hst⟩
  | cmd w => exact hostCmd_sound hs h
  | status => cases h; exact hs
  | store k => cases h; exact hs

/-- Settles O19: the action keeps what the buffers and STATUS hold sound and the rest of the run as it is, and its
index lay in the list, so the index that follows it lies there or at the list's end. -/
theorem stepKeepsTheInvariant : Obligations.StepKeepsTheInvariant := by
  rintro s t ⟨hlegal, hm, hf, hst, -⟩ h
  obtain ⟨act, u, hact, hu, rfl⟩ := step_next h
  obtain ⟨hm', hf', hst'⟩ := performAction_sound ⟨hm, hf, hst⟩ hu
  obtain ⟨hp, hscript, hindex, -⟩ := performAction_sameRun hu
  have hlt := index_lt_of_nextAction hact
  refine ⟨by simpa [hp] using hlegal, hm', hf', hst', ?_⟩
  simp only [advance_index, advance_script, hscript, hindex]
  omega

/-! ### The destination slot (00_scope.md R14, 70_reset_and_hazards.md R243) -/

/-- The outcomes `F d` of command `i` in state `s` with destination `d`, one for each slot, differ only in where the
result stands: they have the same fault (or none) and the same advisory, and what `w d` holds in the components that
`i` writes into `d` is the same for every `d`. -/
def SameForEveryDest (i : Instr) (s : State) (F : SlotNo → Host.Outcome State Fault Refusal) : Prop :=
  ∃ (fault : Option FaultCode) (adv : Advisory) (w : SlotNo → State),
    (∀ d, F d = finish fault adv (w d)) ∧ (∀ d, (w d).status = s.status) ∧
    (fault = none → ∀ d d', agreeOnWrites i d d' (w d) (w d'))

section
variable {i : Instr} {s : State}

theorem sameForEveryDest_ite {c : Prop} [Decidable c] {F G : SlotNo → Host.Outcome State Fault Refusal}
    (hF : SameForEveryDest i s F) (hG : SameForEveryDest i s G) :
    SameForEveryDest i s fun d => if c then F d else G d := by
  by_cases hc : c
  · simpa only [hc, if_true] using hF
  · simpa only [hc, if_false] using hG

theorem sameForEveryDest_raiseAdvising (f : FaultCode) (adv : Advisory) :
    SameForEveryDest i s fun _ => raiseAdvising f adv s :=
  ⟨some f, adv, fun _ => s, fun _ => rfl, fun _ => rfl, fun hf => by cases hf⟩

theorem sameForEveryDest_raise (f : FaultCode) : SameForEveryDest i s fun _ => raise f s :=
  sameForEveryDest_raiseAdvising f Advisory.clear

theorem sameForEveryDest_complete {w : SlotNo → State} (hst : ∀ d, (w d).status = s.status)
    (hw : ∀ d d', agreeOnWrites i d d' (w d) (w d')) : SameForEveryDest i s fun d => complete (w d) :=
  ⟨none, Advisory.clear, w, fun _ => rfl, hst, fun _ => hw⟩

/-- A transform writes the same header and the same samples into any destination. -/
theorem agreeOnWrites_transform (hi : isTransform i = true) (g : WaveHeader) (out : SampleBuffer) (d d' : SlotNo) :
    agreeOnWrites i d d' ((s.setH d g).setSb d out) ((s.setH d' g).setSb d' out) := by
  cases i <;> simp_all [agreeOnWrites, isTransform]

theorem sameForEveryDest_deliver (hi : isTransform i = true) (h : WaveHeader) (nch bps nbytes : Nat)
    (out : SampleBuffer) (adv : Advisory) :
    SameForEveryDest i s fun d => deliver d h nch bps nbytes out adv s := by
  unfold deliver
  cases deriveHeader h nch bps nbytes with
  | none => exact sameForEveryDest_raiseAdvising .rangeOverflow adv
  | some g =>
    exact ⟨none, adv, fun d => (s.setH d g).setSb d out, fun _ => rfl, fun _ => rfl,
      fun _ => agreeOnWrites_transform hi g out⟩

theorem sameForEveryDest_s2mBody (hi : isTransform i = true) (f : Int → Int → Int) (a : SlotNo) :
    SameForEveryDest i s fun d => s2mBody f d a s := by
  unfold s2mBody
  refine sameForEveryDest_ite (sameForEveryDest_raise _) (sameForEveryDest_ite (sameForEveryDest_raise _) ?_)
  cases s.sb a with
  | none => exact sameForEveryDest_raise _
  | i16 q => exact sameForEveryDest_deliver hi ..
  | u32 q => exact sameForEveryDest_raise _

theorem sameForEveryDest_execM2s (hi : isTransform i = true) (a b : SlotNo) :
    SameForEveryDest i s fun d => execM2s d a b s := by
  unfold execM2s
  refine sameForEveryDest_ite (sameForEveryDest_raise _) (sameForEveryDest_ite (sameForEveryDest_raise _) ?_)
  split
  · exact sameForEveryDest_ite (sameForEveryDest_raiseAdvising ..) (sameForEveryDest_deliver hi ..)
  · exact sameForEveryDest_raiseAdvising ..

end

/-- Every command has one outcome for all its destinations: its checks and its result are made from the sources
before anything is written. -/
theorem exec_sameForEveryDest (i : Instr) (s : State) :
    SameForEveryDest i s fun d => exec (withDest i d) s := by
  cases i with
  | hdec _ a | henc _ a | d16 _ a | d32 _ a =>
    exact sameForEveryDest_ite (sameForEveryDest_raise _)
      (sameForEveryDest_complete (fun _ => rfl) (by simp [agreeOnWrites]))
  | e16 _ a =>
    simp only [withDest, exec, execE16]
    cases s.sb a with
    | none => exact sameForEveryDest_raise _
    | i16 q => exact sameForEveryDest_complete (fun _ => rfl) (by simp [agreeOnWrites])
    | u32 q => exact sameForEveryDest_raise _
  | e32 _ a =>
    simp only [withDest, exec, execE32]
    cases s.sb a with
    | none => exact sameForEveryDest_raise _
    | i16 q => exact sameForEveryDest_raise _
    | u32 q => exact sameForEveryDest_complete (fun _ => rfl) (by simp [agreeOnWrites])
  | s2mLeft _ a => exact sameForEveryDest_s2mBody rfl modeLeft a
  | s2mRight _ a => exact sameForEveryDest_s2mBody rfl modeRight a
  | s2mSum _ a => exact sameForEveryDest_s2mBody rfl modeSum a
  | s2mDiff _ a => exact sameForEveryDest_s2mBody rfl modeDiff a
  | m2s _ a b => exact sameForEveryDest_execM2s rfl a b
  | mse _ a =>
    refine sameForEveryDest_ite (sameForEveryDest_raise _) (sameForEveryDest_ite (sameForEveryDest_raise _) ?_)
    cases s.sb a with
    | none => exact sameForEveryDest_raise _
    | i16 q => exact sameForEveryDest_deliver rfl ..
    | u32 q => exact sameForEveryDest_raise _
  | msd _ a =>
    refine sameForEveryDest_ite (sameForEveryDest_raise _) (sameForEveryDest_ite (sameForEveryDest_raise _) ?_)
    cases s.sb a with
    | none => exact sameForEveryDest_raise _
    | i16 q => exact sameForEveryDest_raise _
    | u32 q => exact sameForEveryDest_deliver rfl ..

theorem withDest_destOf (i : Instr) : withDest i (destOf i) = i := by cases i <;> rfl

/-- What a command writes into a slot has no part in STATUS. -/
theorem agreeOnWrites_setStatus {i : Instr} {k k' : SlotNo} {u u' : State} (h : agreeOnWrites i k k' u u')
    (v v' : Half) : agreeOnWrites i k k' (u.setStatus v) (u'.setStatus v') := by
  cases i <;> exact h

/-- No fault code is 0, so `ERR` is 0 only on completion (R205). -/
theorem errAfter_eq_zero_iff (fault : Option FaultCode) : errAfter fault = 0 ↔ fault = none := by
  rcases fault with _ | f
  · simp [errAfter]
  · cases f <;> decide

/-- Settles O26: both runs end by `finish` with the same fault, advisory and result. -/
theorem destinationMayBeASource : Obligations.DestinationMayBeASource := by
  intro i d s t t' ht ht'
  obtain ⟨fault, adv, w, hexec, hst, hw⟩ := exec_sameForEveryDest i s
  beta_reduce at hexec
  rw [← withDest_destOf i, hexec] at ht
  rw [hexec] at ht'
  cases ht
  cases ht'
  refine ⟨by simp only [setStatus_status, hst], fun herr => agreeOnWrites_setStatus (hw ?_ _ _) _ _⟩
  rwa [setStatus_status, statusErr_statusAfter, errAfter_eq_zero_iff] at herr

end Sys2Proof.Machine
end

section
/-!
PROOFS for the family of 10_state.md: what only Reset clears (R24, R42), the index (R50), HostStatus (R40), and the
state after reset (R55).
-/
namespace Sys2Proof.Machine

/-! ### What only Reset clears (R24, R30, R42, R230) -/

/-- A valid bit set in `s` is set in `u`, and a sample buffer that has a kind in `s` is not back at NONE in `u`. -/
def KeepsMarks (s u : State) : Prop :=
  (∀ k, s.hv k = true → u.hv k = true) ∧ (∀ k, (s.sb k).kind ≠ .none → (u.sb k).kind ≠ .none)

theorem keepsMarks_of_eq {s u : State} (hhv : ∀ k, u.hv k = s.hv k) (hsb : ∀ k, u.sb k = s.sb k) :
    KeepsMarks s u :=
  ⟨fun k h => (hhv k).trans h, fun k h => by rwa [hsb k]⟩

theorem keepsMarks_refl (s : State) : KeepsMarks s s := keepsMarks_of_eq (fun _ => rfl) (fun _ => rfl)

theorem KeepsMarks.trans {s u v : State} (hu : KeepsMarks s u) (hv : KeepsMarks u v) : KeepsMarks s v := by
  obtain ⟨hhv, hsb⟩ := hu
  obtain ⟨hhv', hsb'⟩ := hv
  exact ⟨fun k h => hhv' k (hhv k h), fun k h => hsb' k (hsb k h)⟩

/-- A written header register is valid. -/
theorem keepsMarks_setH (s : State) (d : SlotNo) (g : WaveHeader) : KeepsMarks s (s.setH d g) := by
  refine ⟨fun k h => ?_, fun k h => by rwa [sb_setH]⟩
  rw [hv_setH, h, ite_self]

theorem kind_eq_none_iff (b : SampleBuffer) : b.kind = .none ↔ b = .none := by
  cases b <;> simp [SampleBuffer.kind]

/-- A written sample buffer has a kind. -/
theorem keepsMarks_setSb (s : State) (d : SlotNo) {b : SampleBuffer} (hb : b ≠ .none) :
    KeepsMarks s (s.setSb d b) := by
  refine ⟨fun k h => by rwa [hv_setSb], fun k h => ?_⟩
  rw [sb_setSb]
  split
  · exact mt (kind_eq_none_iff b).1 hb
  · exact h

theorem Wrote.keepsMarks {s u : State} {i : Instr} (h : Wrote s i u) : KeepsMarks s u := by
  cases h with
  | hdec d a hl => exact keepsMarks_setH ..
  | henc d a hv => exact keepsMarks_of_eq (by simp) (by simp)
  | d16 d a hl => exact keepsMarks_setSb _ _ (by simp)
  | e16 d a q hq => exact keepsMarks_of_eq (by simp) (by simp)
  | d32 d a hl => exact keepsMarks_setSb _ _ (by simp)
  | e32 d a q hq => exact keepsMarks_of_eq (by simp) (by simp)
  | transform i h g nch bps out hi hn hb hout hfit hg =>
    exact (keepsMarks_setH ..).trans (keepsMarks_setSb _ _ hout)

/-- R42: the STATUS update of a command keeps every sticky bit that is set. -/
theorem getLsbD_statusAfter_of_sticky {old : Half} {n : Nat} (hn : 9 ≤ n) (h : old.getLsbD n = true)
    (fault : Option FaultCode) (adv : Advisory) : (statusAfter old fault adv).getLsbD n = true := by
  have hlt : n < 16 := BitVec.lt_of_getLsbD h
  obtain ⟨k, rfl⟩ : ∃ k, n = 8 + k := ⟨n - 8, by omega⟩
  have hold : stickyOf old k = true := h
  have hnew := stickyOf_statusAfter old fault adv k (by omega) (by omega)
  rw [hold] at hnew
  simpa [stickyOf] using hnew

/-- No valid bit, no kind and no sticky bit of `s` is cleared in `u`. -/
def ClearsNothing (s u : State) : Prop :=
  KeepsMarks s u ∧ ∀ n, 9 ≤ n → s.status.getLsbD n = true → u.status.getLsbD n = true

theorem clearsNothing_of_status_eq {s u : State} (hm : KeepsMarks s u) (hst : u.status = s.status) :
    ClearsNothing s u :=
  ⟨hm, fun n _ h => by rwa [hst]⟩

/-- The end of a command clears nothing that its writes left (R205). -/
theorem clearsNothing_statusAfter {s u : State} (hm : KeepsMarks s u) (fault : Option FaultCode) (adv : Advisory) :
    ClearsNothing s (u.setStatus (statusAfter s.status fault adv)) :=
  ⟨hm, fun _ hn h => getLsbD_statusAfter_of_sticky hn h fault adv⟩

theorem exec_clearsNothing {i : Instr} {s t : State} (h : exec i s = .next t) : ClearsNothing s t := by
  obtain ⟨adv, -, ⟨f, rfl⟩ | ⟨u, hw, rfl⟩⟩ := exec_next h
  · exact clearsNothing_statusAfter (keepsMarks_refl s) _ _
  · exact clearsNothing_statusAfter hw.keepsMarks _ _

theorem hostCmd_clearsNothing {w : Half} {s t : State} (h : hostCmd w s = .next t) : ClearsNothing s t := by
  obtain ⟨i, -, hi⟩ | ⟨e, -, rfl⟩ := hostCmd_next h
  · exact exec_clearsNothing hi
  · rw [show (5 : Nat) = FaultCode.illegalCommand.code from rfl, ← statusAfter_fault]
    exact clearsNothing_statusAfter (keepsMarks_refl s) _ _

theorem performAction_clearsNothing {act : HostAction} {s u : State} (hact : act ≠ .reset)
    (h : performAction act s = .next u) : ClearsNothing s u := by
  cases act with
  | reset => exact absurd rfl hact
  | load k q =>
    obtain ⟨-, rfl⟩ := hostLoad_next h
    exact clearsNothing_of_status_eq (keepsMarks_of_eq (by simp) (by simp)) rfl
  | cmd w => exact hostCmd_clearsNothing h
  | status => cases h; exact clearsNothing_of_status_eq (keepsMarks_refl s) rfl
  | store k => cases h; exact clearsNothing_of_status_eq (keepsMarks_refl s) rfl

/-- Settles O20: a step is a host action, which clears nothing when it is not Reset, and a move of the index. -/
theorem onlyResetClears : Obligations.OnlyResetClears := by
  intro s t h hreset
  obtain ⟨act, u, hact, hu, rfl⟩ := step_next h
  have hne : act ≠ .reset := fun he => hreset (he ▸ hact)
  obtain ⟨⟨hhv, hsb⟩, hst⟩ := performAction_clearsNothing hne hu
  exact ⟨hhv, hsb, hst⟩

/-! ### One step (R50) -/

/-- Settles O8: a host action leaves the index and the list as they are, and the index then moves by one. -/
theorem stepMovesTheIndexByOne : Obligations.StepMovesTheIndexByOne := by
  intro s t h
  obtain ⟨act, u, -, hu, rfl⟩ := step_next h
  obtain ⟨-, hscript, hindex, -⟩ := performAction_sameRun hu
  exact ⟨congrArg (· + 1) hindex, hscript⟩

/-- A step does the next host action, then moves the index. -/
theorem step_of_nextAction {s : State} {act : HostAction} (h : nextAction s = some act) :
    step s = advanced (performAction act s) := by
  simp [step, runNext, h]

theorem hostCmd_of_decode {w : Half} {i : Instr} (h : decode w = .ok i) (s : State) : hostCmd w s = exec i s := by
  simp [hostCmd, h]

/-- Settles O7: the step is HostCmd of the word, which is the decoded command. -/
theorem stepRunsTheDecodedCommand : Obligations.StepRunsTheDecodedCommand := by
  intro s w i hact hdec
  rw [step_of_nextAction hact, performAction, hostCmd_of_decode hdec]
  cases exec i s <;> rfl

/-! ### HostStatus (R40, R73) -/

section
variable (s : State)

theorem statusReserved_readStatus : statusReserved s.readStatus = 0 := by
  simp [statusReserved, State.readStatus, BitVec.extractLsb'_and]
theorem statusErr_readStatus : statusErr s.readStatus = statusErr s.status := by
  rw [statusErr, statusErr, State.readStatus, BitVec.extractLsb'_and]
  exact BitVec.and_allOnes
theorem statusWrate_readStatus : statusWrate s.readStatus = statusWrate s.status := by
  simp [statusWrate, State.readStatus]
theorem statusWlen_readStatus : statusWlen s.readStatus = statusWlen s.status := by
  simp [statusWlen, State.readStatus]
theorem statusSticky_readStatus : statusSticky s.readStatus = statusSticky s.status := by
  rw [statusSticky, statusSticky, State.readStatus, BitVec.extractLsb'_and]
  exact BitVec.and_allOnes

end

/-- Settles O14: the reply is STATUS as it is read. -/
theorem hostStatusReturnsStatus : Obligations.HostStatusReturnsStatus := by
  intro s hact
  refine ⟨s.readStatus, ?_, statusReserved_readStatus s, statusErr_readStatus s, statusWrate_readStatus s,
    statusWlen_readStatus s, statusSticky_readStatus s⟩
  rw [step_of_nextAction hact]
  rfl

/-! ### The state after reset (R55) -/

/-- In a state with no valid header register and no sample buffer, a command that reads one raises
InvalidOperand. -/
theorem faultsWith_of_nothing_to_read {s : State} (hhv : ∀ k, s.hv k = false) (hsb : ∀ k, s.sb k = .none)
    (d a b : SlotNo) : ∀ i ∈ readersOfHeaderOrSamples d a b, faultsWith i s 6 := by
  suffices h : ∀ i ∈ readersOfHeaderOrSamples d a b, exec i s = raise .invalidOperand s from
    fun i hi => (h i hi).trans (raise_eq _ _)
  have he16 : exec (.e16 d a) s = raise .invalidOperand s := by simp only [exec, execE16, hsb a]
  have he32 : exec (.e32 d a) s = raise .invalidOperand s := by simp only [exec, execE32, hsb a]
  simp only [readersOfHeaderOrSamples, List.forall_mem_cons]
  exact ⟨if_pos (hhv a), he16, he32, if_pos (hhv a), if_pos (hhv a), if_pos (hhv a), if_pos (hhv a),
    if_pos (.inl (hhv a)), if_pos (hhv a), if_pos (hhv a), List.forall_mem_nil _⟩

/-! The state at reset is what the action Reset leaves of it. -/

@[simp] theorem hb_reset (k : SlotNo) : State.reset.hb k = [] := hb_blockReset State.reset k
@[simp] theorem pb_reset (k : SlotNo) : State.reset.pb k = [] := pb_blockReset State.reset k
@[simp] theorem hv_reset (k : SlotNo) : State.reset.hv k = false := hv_blockReset State.reset k
@[simp] theorem sb_reset (k : SlotNo) : State.reset.sb k = .none := sb_blockReset State.reset k

/-- Settles O16: the values are Reset's, and a command finds no header register and no sample buffer to read. -/
theorem resetStateIsTheSpecs : Obligations.ResetStateIsTheSpecs := by
  refine ⟨rfl, fun k => ⟨hb_reset k, pb_reset k, hv_reset k, ?_⟩, ?_⟩
  · rw [sb_reset, SampleBuffer.kind]
  · exact faultsWith_of_nothing_to_read hv_reset sb_reset

theorem samplesFit_reset : samplesFit State.reset = true := by
  rw [samplesFit_iff]
  intro k
  rw [sb_reset]
  exact Nat.zero_le _

/-- Settles O18: the capacity is a legal number, and every buffer, STATUS and the list are empty. -/
theorem resetMeetsTheInvariant : Obligations.ResetMeetsTheInvariant :=
  ⟨pbMaxLegal_pbMaxOf Config.pbMaxChoice, reset_memory_wf, samplesFit_reset, by decide, Nat.le_refl 0⟩

end Sys2Proof.Machine
end

section
/-!
PROOFS for the family of 20_memory.md: the host's loads and stores (R71, R72, R74), commands issued again (R76, R243),
the bytes of a payload under both codecs (R62), and the conversion of a file (R77, R89).
-/
namespace Sys2Proof.Machine

/-! ### HostLoad and HostStore (R71, R72, R74) -/

/-- Settles O11: of the three cases of `step_cases` only the overlong load is a refusal. -/
theorem onlyAnOverlongLoadHasNoStep : Obligations.OnlyAnOverlongLoadHasNoStep := by
  intro s r
  obtain ⟨hact, hs⟩ | ⟨act, hact, ⟨⟨k, q, rfl, hq⟩, hs⟩ | ⟨ho, t, hs⟩⟩ := step_cases s
  · simp [hact, hs]
  · simp [hact, hs, hq, eq_comm]
  · rw [hs]
    refine iff_of_false (by simp) ?_
    rintro ⟨-, k, q, h, hq⟩
    exact ho ⟨k, q, Option.some.inj (hact.symm.trans h), hq⟩

/-- A load that fits has its step: the file is split after 44 bytes. -/
theorem hostLoad_of_length_le {k : SlotNo} {q : List Byte} {s : State} (h : q.length ≤ 44 + s.pbMax) :
    hostLoad k q s = .next ((s.setHb k (q.take 44)).setPb k (q.drop 44)) :=
  if_neg (Nat.not_lt.2 h)

/-- What the writes of a load leave alone. -/
theorem changesOnly_setHb_setPb (s : State) (k : SlotNo) (p q : List Byte) :
    changesOnly (some k) (some k) none none s ((s.setHb k p).setPb k q) := by
  have hne : ∀ {j : SlotNo}, some k ≠ some j → j ≠ k := fun hj h => hj (congrArg some h.symm)
  refine ⟨fun j hj off => ?_, fun j hj off => ?_, fun j _ => ⟨by simp, by simp⟩, fun j _ => by simp,
    rfl, rfl, rfl, rfl⟩
  · simp [State.readHb, hne hj]
  · simp [State.readPb, hne hj]

/-- HDEC of fewer than 44 bytes is TruncatedInput (40_header_codec.md R101). -/
theorem faultsWith_hdec_of_short (d : SlotNo) {a : SlotNo} {s : State} (h : (s.hb a).length < 44) :
    faultsWith (.hdec d a) s 1 :=
  (if_pos h).trans (raise_eq .truncatedInput s)

/-- Settles O12: the step is HostLoad, which has a next state exactly when the file fits. -/
theorem hostLoadSplitsTheFile : Obligations.HostLoadSplitsTheFile := by
  intro s k q hact
  rw [step_of_nextAction hact, performAction]
  refine ⟨fun hle => ?_, fun hlong => ?_⟩
  · rw [hostLoad_of_length_le hle]
    refine ⟨_, rfl, ?_, ?_, rfl, changesOnly_setHb_setPb s k _ _, fun hshort => ?_⟩
    · simp
    · simp
    · have hhb : (((s.setHb k (q.take 44)).setPb k (q.drop 44)).advance.hb k).length < 44 := by
        simp; omega
      refine ⟨hhb, ?_, fun d => faultsWith_hdec_of_short d hhb⟩
      simp; omega
  · have hrefused : hostLoad k q s = .refused .loadTooLong := if_pos hlong
    rw [hrefused, advanced]

/-- Settles O13: the step is HostStore, whose reply is the two buffers, then the move of the index. -/
theorem hostStoreReturnsTheFile : Obligations.HostStoreReturnsTheFile := by
  intro s k hact
  rw [step_of_nextAction hact]
  rfl

/-! ### A command issued again (R76) -/

/-- The STATUS update of one command, made again, leaves the same word (60_exceptions.md R205). -/
theorem statusAfter_statusAfter (old : Half) (fault : Option FaultCode) (adv : Advisory) :
    statusAfter (statusAfter old fault adv) fault adv = statusAfter old fault adv := by
  rw [statusAfter, statusSticky_statusAfter, BitVec.or_assoc, BitVec.or_self, ← statusAfter]

theorem setSlot_slot_self (s : State) (k : SlotNo) : s.setSlot k (s.slot k) = s := by
  refine State.ext_of_slots (fun j => ?_) rfl rfl rfl rfl rfl
  rw [slot_setSlot]
  split
  case isTrue h => rw [h]
  case isFalse => rfl

theorem setSlot_setSlot (s : State) (k : SlotNo) (v w : Slot) : (s.setSlot k v).setSlot k w = s.setSlot k w := by
  refine State.ext_of_slots (fun j => ?_) rfl rfl rfl rfl rfl
  simp only [slot_setSlot]
  split <;> rfl

/-- Header register and sample buffer of one slot, written one after the other, are one rewriting of it. -/
theorem setH_setSb_eq_setSlot (s : State) (d : SlotNo) (g : WaveHeader) (out : SampleBuffer) :
    (s.setH d g).setSb d out = s.setSlot d { s.slot d with hv := true, h := g, sb := out } := by
  simp [State.setH, State.setSb, setSlot_setSlot]

/-- `o` and `o'` are the outcomes of one command in `s` and in `u`: they have the same fault (or none) and the same
advisory, and slot `d` is rewritten by the same function, which changes nothing when it is applied again. -/
def SameRewrite (d : SlotNo) (s u : State) (o o' : Host.Outcome State Fault Refusal) : Prop :=
  ∃ (fault : Option FaultCode) (adv : Advisory) (f : Slot → Slot), (∀ v, f (f v) = f v) ∧
    o = finish fault adv (s.setSlot d (f (s.slot d))) ∧ o' = finish fault adv (u.setSlot d (f (u.slot d)))

/-- `u` holds in the source slots of a command what `s` holds there, and has its capacity. -/
def SameSources (i : Instr) (s u : State) : Prop :=
  (∀ k ∈ sourcesOf i, u.slot k = s.slot k) ∧ u.pbMax = s.pbMax

section
variable {d : SlotNo} {s u : State}

theorem sameRewrite_ite {c : Prop} [Decidable c] {x x' y y' : Host.Outcome State Fault Refusal}
    (hx : SameRewrite d s u x x') (hy : SameRewrite d s u y y') :
    SameRewrite d s u (if c then x else y) (if c then x' else y') := by
  by_cases hc : c
  · simpa only [hc, if_true] using hx
  · simpa only [hc, if_false] using hy

theorem sameRewrite_raiseAdvising (f : FaultCode) (adv : Advisory) :
    SameRewrite d s u (raiseAdvising f adv s) (raiseAdvising f adv u) :=
  ⟨some f, adv, id, fun _ => rfl, by rw [id, setSlot_slot_self]; rfl, by rw [id, setSlot_slot_self]; rfl⟩

theorem sameRewrite_raise (f : FaultCode) : SameRewrite d s u (raise f s) (raise f u) :=
  sameRewrite_raiseAdvising f Advisory.clear

/-- One component written: the write is a rewriting of its slot. -/
theorem sameRewrite_complete (f : Slot → Slot) (hf : ∀ v, f (f v) = f v) :
    SameRewrite d s u (complete (s.setSlot d (f (s.slot d)))) (complete (u.setSlot d (f (u.slot d)))) :=
  ⟨none, Advisory.clear, f, hf, rfl, rfl⟩

theorem sameRewrite_deliver (h : WaveHeader) (nch bps nbytes : Nat) (out : SampleBuffer) (adv : Advisory) :
    SameRewrite d s u (deliver d h nch bps nbytes out adv s) (deliver d h nch bps nbytes out adv u) := by
  unfold deliver
  cases deriveHeader h nch bps nbytes with
  | none => exact sameRewrite_raiseAdvising .rangeOverflow adv
  | some g =>
    exact ⟨none, adv, fun v => { v with hv := true, h := g, sb := out }, fun _ => rfl,
      congrArg (completeAdvising adv) (setH_setSb_eq_setSlot s d g out),
      congrArg (completeAdvising adv) (setH_setSb_eq_setSlot u d g out)⟩

theorem sameRewrite_s2mBody (f : Int → Int → Int) {a : SlotNo} (ha : u.slot a = s.slot a) :
    SameRewrite d s u (s2mBody f d a s) (s2mBody f d a u) := by
  simp only [s2mBody, State.hv, State.h, State.sb, ha]
  refine sameRewrite_ite (sameRewrite_raise _) (sameRewrite_ite (sameRewrite_raise _) ?_)
  cases (s.slot a).sb with
  | none => exact sameRewrite_raise _
  | i16 q => exact sameRewrite_deliver ..
  | u32 q => exact sameRewrite_raise _

theorem sameRewrite_execM2s {a b : SlotNo} (ha : u.slot a = s.slot a) (hb : u.slot b = s.slot b)
    (hp : u.pbMax = s.pbMax) : SameRewrite d s u (execM2s d a b s) (execM2s d a b u) := by
  simp only [execM2s, m2sCombine, State.hv, State.h, State.sb, ha, hb, hp]
  refine sameRewrite_ite (sameRewrite_raise _) (sameRewrite_ite (sameRewrite_raise _) ?_)
  split
  · exact sameRewrite_ite (sameRewrite_raiseAdvising ..) (sameRewrite_deliver ..)
  · exact sameRewrite_raiseAdvising ..

end

/-- The outcome of a command is made from its source slots and the capacity alone. -/
theorem exec_sameRewrite {i : Instr} {s u : State} (h : SameSources i s u) :
    SameRewrite (destOf i) s u (exec i s) (exec i u) := by
  obtain ⟨hslot, hp⟩ := h
  cases i with
  | hdec d a =>
    have ha := hslot a (List.mem_singleton_self a)
    simp only [exec, execHdec, State.hb, ha]
    exact sameRewrite_ite (sameRewrite_raise _)
      (sameRewrite_complete (fun v => { v with hv := true, h := unpackHeader (s.slot a).hb }) fun _ => rfl)
  | henc d a =>
    have ha := hslot a (List.mem_singleton_self a)
    simp only [exec, execHenc, State.hv, State.h, ha]
    exact sameRewrite_ite (sameRewrite_raise _)
      (sameRewrite_complete (fun v => { v with hb := packHeader (s.slot a).h }) fun _ => rfl)
  | d16 d a =>
    have ha := hslot a (List.mem_singleton_self a)
    simp only [exec, execD16, State.pb, ha]
    exact sameRewrite_ite (sameRewrite_raise _)
      (sameRewrite_complete (fun v => { v with sb := .i16 (samples16 (s.slot a).pb) }) fun _ => rfl)
  | e16 d a =>
    have ha := hslot a (List.mem_singleton_self a)
    simp only [exec, execE16, State.sb, ha]
    cases (s.slot a).sb with
    | none => exact sameRewrite_raise _
    | i16 q => exact sameRewrite_complete (fun v => { v with pb := bytes16 q }) fun _ => rfl
    | u32 q => exact sameRewrite_raise _
  | d32 d a =>
    have ha := hslot a (List.mem_singleton_self a)
    simp only [exec, execD32, State.pb, ha]
    exact sameRewrite_ite (sameRewrite_raise _)
      (sameRewrite_complete (fun v => { v with sb := .u32 (samples32 (s.slot a).pb) }) fun _ => rfl)
  | e32 d a =>
    have ha := hslot a (List.mem_singleton_self a)
    simp only [exec, execE32, State.sb, ha]
    cases (s.slot a).sb with
    | none => exact sameRewrite_raise _
    | i16 q => exact sameRewrite_raise _
    | u32 q => exact sameRewrite_complete (fun v => { v with pb := bytes32 q }) fun _ => rfl
  | s2mLeft d a => exact sameRewrite_s2mBody modeLeft (hslot a (List.mem_singleton_self a))
  | s2mRight d a => exact sameRewrite_s2mBody modeRight (hslot a (List.mem_singleton_self a))
  | s2mSum d a => exact sameRewrite_s2mBody modeSum (hslot a (List.mem_singleton_self a))
  | s2mDiff d a => exact sameRewrite_s2mBody modeDiff (hslot a (List.mem_singleton_self a))
  | m2s d a b => exact sameRewrite_execM2s (hslot a (by simp [sourcesOf])) (hslot b (by simp [sourcesOf])) hp
  | mse d a =>
    have ha := hslot a (List.mem_singleton_self a)
    simp only [exec, execMse, State.hv, State.h, State.sb, ha]
    refine sameRewrite_ite (sameRewrite_raise _) (sameRewrite_ite (sameRewrite_raise _) ?_)
    cases (s.slot a).sb with
    | none => exact sameRewrite_raise _
    | i16 q => exact sameRewrite_deliver ..
    | u32 q => exact sameRewrite_raise _
  | msd d a =>
    have ha := hslot a (List.mem_singleton_self a)
    simp only [exec, execMsd, State.hv, State.h, State.sb, ha]
    refine sameRewrite_ite (sameRewrite_raise _) (sameRewrite_ite (sameRewrite_raise _) ?_)
    cases (s.slot a).sb with
    | none => exact sameRewrite_raise _
    | i16 q => exact sameRewrite_raise _
    | u32 q => exact sameRewrite_deliver ..

/-- A command leaves every slot but its destination as it was, and the capacity. -/
theorem exec_frame {i : Instr} {s t : State} (h : exec i s = .next t) :
    (∀ k, k ≠ destOf i → t.slot k = s.slot k) ∧ t.pbMax = s.pbMax := by
  obtain ⟨fault, adv, f, -, he, -⟩ := exec_sameRewrite (i := i) (s := s) ⟨fun _ _ => rfl, rfl⟩
  cases he.symm.trans h
  exact ⟨fun k hk => (slot_setSlot ..).trans (if_neg hk), rfl⟩

/-- Settles O27: the first run left the sources as they were, so the second has the same fault, the same advisory and
the same rewriting of the destination, which with the STATUS update changes nothing when it is done again. -/
theorem commandIsIdempotent : Obligations.CommandIsIdempotent := by
  intro i s t hdest h
  obtain ⟨hslot, hp⟩ := exec_frame h
  have hsame : SameSources i s t := ⟨fun k hk => hslot k fun he => hdest (he ▸ hk), hp⟩
  obtain ⟨fault, adv, f, hf, hs, ht⟩ := exec_sameRewrite hsame
  have hst : t = (s.setSlot (destOf i) (f (s.slot (destOf i)))).setStatus (statusAfter s.status fault adv) := by
    cases hs.symm.trans h
    rfl
  have hd : f (t.slot (destOf i)) = t.slot (destOf i) := by
    have hslot_d : t.slot (destOf i) = f (s.slot (destOf i)) := by
      rw [hst]
      exact (slot_setSlot ..).trans (if_pos rfl)
    rw [hslot_d, hf]
  have hstatus : statusAfter t.status fault adv = t.status := by
    rw [hst, setStatus_status, statusAfter_statusAfter]
  rw [ht, hd, setSlot_slot_self, finish, hstatus, setStatus_self]

/-! ### S2M in place (R76, R243) -/

/-- A fault leaves its code in `ERR`, and no code is 0 (60_exceptions.md R200, R205). -/
theorem statusErr_ne_zero_of_raiseAdvising {f : FaultCode} {adv : Advisory} {s t : State}
    (h : raiseAdvising f adv s = .next t) : statusErr t.status ≠ 0 := by
  cases h
  rw [setStatus_status, statusErr_statusAfter, Ne, errAfter_eq_zero_iff]
  exact Option.some_ne_none f

theorem statusErr_ne_zero_of_raise {f : FaultCode} {s t : State} (h : raise f s = .next t) :
    statusErr t.status ≠ 0 :=
  statusErr_ne_zero_of_raiseAdvising (adv := Advisory.clear) h

theorem numChannels_of_deriveHeader {h g : WaveHeader} {nch bps nbytes : Nat}
    (hg : deriveHeader h nch bps nbytes = some g) : g.numChannels = BitVec.ofNat 16 nch := by
  simp only [deriveHeader] at hg
  split at hg
  · cases hg
  · cases hg
    rfl

/-- A completed delivery left a valid header of the derived number of channels. -/
theorem numChannels_of_deliver {d : SlotNo} {h : WaveHeader} {nch bps nbytes : Nat} {out : SampleBuffer}
    {adv : Advisory} {s t : State} (ht : deliver d h nch bps nbytes out adv s = .next t)
    (herr : statusErr t.status = 0) : t.hv d = true ∧ (t.h d).numChannels = BitVec.ofNat 16 nch := by
  obtain ⟨-, hd⟩ | ⟨-, g, hg, hd⟩ := deliver_cases d h nch bps nbytes out adv s
  · exact absurd herr (statusErr_ne_zero_of_raiseAdvising (hd.symm.trans ht))
  · cases hd.symm.trans ht
    simp [numChannels_of_deriveHeader hg]

/-- A completed S2M left a mono header in its destination (42_stereo_to_mono.md R140). -/
theorem mono_of_s2mBody {f : Int → Int → Int} {d a : SlotNo} {s t : State} (h : s2mBody f d a s = .next t)
    (herr : statusErr t.status = 0) : t.hv d = true ∧ (t.h d).numChannels = 1 := by
  unfold s2mBody at h
  split at h
  · exact absurd herr (statusErr_ne_zero_of_raise h)
  split at h
  · exact absurd herr (statusErr_ne_zero_of_raise h)
  split at h
  · exact numChannels_of_deliver h herr
  · exact absurd herr (statusErr_ne_zero_of_raise h)
  · exact absurd herr (statusErr_ne_zero_of_raise h)

/-- S2M of a mono header is UnsupportedFormat (42_stereo_to_mono.md R140). -/
theorem s2mBody_of_mono (f : Int → Int → Int) (d : SlotNo) {a : SlotNo} {s : State} (hv : s.hv a = true)
    (hn : (s.h a).numChannels = 1) : s2mBody f d a s = raise .unsupportedFormat s := by
  simp [s2mBody, hv, hn]

/-- Settles O28: the first S2M.SUM left a mono header in its own source. -/
theorem sumInPlaceIsNotIdempotent : Obligations.SumInPlaceIsNotIdempotent := by
  intro a s t h herr
  obtain ⟨hv, hn⟩ := mono_of_s2mBody h herr
  exact (s2mBody_of_mono modeSum a hv hn).trans (raise_eq .unsupportedFormat t)

/-! ### The bytes of a payload under both codecs (R62) -/

/-- The lower half of a little-endian word is made of its first two bytes. -/
theorem le32_low (b0 b1 b2 b3 : Byte) :
    (BitVec.ofNat 32 (le32 b0 b1 b2 b3)).extractLsb' 0 16 = BitVec.ofNat 16 (le16 b0 b1) := by
  apply BitVec.eq_of_toNat_eq
  simp [le32, le16]
  omega

/-- The upper half of a little-endian word is made of its last two bytes. -/
theorem le32_high (b0 b1 b2 b3 : Byte) :
    (BitVec.ofNat 32 (le32 b0 b1 b2 b3)).extractLsb' 16 16 = BitVec.ofNat 16 (le16 b2 b3) := by
  have hlow := le16_lt b0 b1
  apply BitVec.eq_of_toNat_eq
  simp [le32, le16, Nat.shiftRight_eq_div_pow] at hlow ⊢
  omega

/-- Settles O39: element n of D32 is made of bytes 4n to 4n + 3, elements 2n and 2n + 1 of D16 of its halves. -/
theorem bothDecodersSeeTheSameBytes : Obligations.BothDecodersSeeTheSameBytes := by
  intro d a s hlen
  refine ⟨_, _, samples16 (s.pb a), samples32 (s.pb a), exec_d16_ok d (by omega), exec_d32_ok d hlen,
    by simp, by simp, by simp only [samples16_length, samples32_length]; omega, fun n hn => ?_⟩
  rw [samples32_length] at hn
  have hw := samples32_getElem? (s.pb a) n (by omega)
  have hl := samples16_getElem? (s.pb a) (2 * n) (by omega)
  have hr := samples16_getElem? (s.pb a) (2 * n + 1) (by omega)
  simp only [List.getD_eq_getElem?_getD, hw, hl, hr, Option.getD_some, le32_low, le32_high]
  simp [← Nat.mul_assoc, Nat.mul_add, Nat.add_assoc]

/-- The four bytes of a word are the two of its lower half, then the two of its upper half (20_memory.md R60). -/
theorem bytesLe_word_halves (w : Word) :
    bytesLe w.toNat 4 = bytesLe (w.extractLsb' 0 16).toNat 2 ++ bytesLe (w.extractLsb' 16 16).toNat 2 := by
  have hupper : ∀ n, n + 8 ≤ 16 → (w.extractLsb' 16 16).extractLsb' n 8 = w.extractLsb' (16 + n) 8 := by
    intro n hn
    apply BitVec.eq_of_getLsbD_eq
    intro i hi
    simp [show n + i < 16 by omega, Nat.add_assoc]
  have hlower : ∀ n, n + 8 ≤ 16 → (w.extractLsb' 0 16).extractLsb' n 8 = w.extractLsb' n 8 :=
    fun n hn => BitVec.extractLsb'_extractLsb'_of_le hn
  rw [bytesLe_word, bytesLe_half, bytesLe_half, hlower 0 (by omega), hlower 8 (by omega), hupper 0 (by omega),
    hupper 8 (by omega)]
  rfl

/-- Packed pairs and stereo samples have the same bytes, an unmatched last sample left out (R171 corner case d). -/
theorem bytes32_packPairs (q : List Half) :
    bytes32 ((stereoPairs q).map packPair) = (bytes16 q).take (4 * (q.length / 2)) := by
  induction q using stereoPairs.induct with
  | case1 l r rest ih =>
    have hlen : 4 * ((l :: r :: rest).length / 2) = 4 * (rest.length / 2) + 4 := by
      simp only [List.length_cons]; omega
    simp only [stereoPairs, List.map_cons, bytes32, bytesLe_word_halves, packPair_low, packPair_high, ih, hlen, bytes16,
      bytesLe_half]
    simp
  | case2 x => simp [stereoPairs, bytes32]
  | case3 => rfl

/-- Settles O55: both encoders complete, on MSE's packed pairs and on the stereo buffer. -/
theorem packedPayloadIsTheStereoPayload : Obligations.PackedPayloadIsTheStereoPayload := by
  intro m a d s q hv hn hb hq hr
  obtain ⟨g, -, ht⟩ := exec_mse_ok m hv hn hb hq hr
  exact ⟨_, _, _, ht, exec_e32_ok d (by simp; rfl), exec_e16_ok d hq, by simp [bytes32_packPairs]⟩

/-! ### The conversion of a file (R77, R89) -/

theorem runCommands_cons {i : Instr} {s t : State} (h : exec i s = .next t) (rest : List Instr) :
    runCommands (i :: rest) s = runCommands rest t := by
  simp only [runCommands, h]

@[simp] theorem doneStatus_doneStatus (w : Half) : doneStatus (doneStatus w) = doneStatus w := by
  rw [doneStatus, doneStatus, BitVec.and_assoc, BitVec.and_self]

/-- The function of a mode of S2M (42_stereo_to_mono.md R141 to R144). -/
def modeFunction : ChannelMode → Int → Int → Int
  | .left => modeLeft
  | .right => modeRight
  | .sum => modeSum
  | .diff => modeDiff

theorem exec_s2mOf (mode : ChannelMode) (d a : SlotNo) (s : State) :
    exec (s2mOf mode d a) s = s2mBody (modeFunction mode) d a s := by
  cases mode <;> rfl

/-- No mode leaves the signed 16-bit range (42_stereo_to_mono.md R145). -/
theorem s16_u16_modeFunction (mode : ChannelMode) (l r : Half) :
    s16 (u16 (modeFunction mode (s16 l) (s16 r))) = modeFunction mode (s16 l) (s16 r) := by
  have hrange : -32768 ≤ modeFunction mode (s16 l) (s16 r) ∧ modeFunction mode (s16 l) (s16 r) ≤ 32767 := by
    cases mode with
    | left => exact s16_range l
    | right => exact s16_range r
    | sum => exact modeSum_range l r
    | diff => exact modeDiff_range l r
  exact s16_u16 _ hrange.1 hrange.2

/-- The two bytes at offset 2n of an encoded buffer are element n. -/
theorem halfAt_bytes16 {q : List Half} {n : Nat} (h : n < q.length) : halfAt (bytes16 q) (2 * n) = q[n] := by
  obtain ⟨h0, h1⟩ := bytes16_getElem? q n h
  rw [halfAt_eq _ _ (by rw [bytes16_length]; omega), List.getD_eq_getElem?_getD, List.getD_eq_getElem?_getD, h0, h1]
  exact le16_bytes q[n]

/-- Element n of a decoded payload is the two bytes at offset 2n. -/
theorem samples16_getElem {buf : List Byte} {n : Nat} (h : n < (samples16 buf).length) :
    (samples16 buf)[n] = halfAt buf (2 * n) := by
  rw [samples16_length] at h
  have hn := samples16_getElem? buf n (by omega)
  rw [List.getElem_eq_iff, hn, halfAt_eq _ _ (by omega)]
  simp [show 2 * n < buf.length by omega, show 2 * n + 1 < buf.length by omega]

/-- The first two commands of a file conversion of 16-bit samples: a file in slot `a` is decoded in place (R89). -/
theorem runCommands_decodeFile {a : SlotNo} {s : State} (hhb : 44 ≤ (s.hb a).length)
    (hpb : (s.pb a).length % 2 = 0) :
    ∃ u, (∀ rest, runCommands (.hdec a a :: .d16 a a :: rest) s = runCommands rest u) ∧
      u.status = doneStatus s.status ∧ u.hv a = true ∧ u.h a = unpackHeader (s.hb a) ∧
      u.sb a = .i16 (samples16 (s.pb a)) := by
  have hhdec := exec_hdec_ok a hhb
  have hd16 := exec_d16_ok a (a := a) (s := (s.setH a (unpackHeader (s.hb a))).setStatus (doneStatus s.status))
    (by simpa using hpb)
  exact ⟨_, fun rest => (runCommands_cons hhdec _).trans (runCommands_cons hd16 rest), by simp⟩

/-- The last two commands of a file conversion to 16-bit samples: slot `d` is encoded in place (R89). -/
theorem runCommands_encodeFile {d : SlotNo} {s : State} {q : List Half} (hv : s.hv d = true)
    (hq : s.sb d = .i16 q) :
    ∃ t, runCommands [.henc d d, .e16 d d] s = .next t ∧ t.status = doneStatus s.status ∧
      t.hb d = packHeader (s.h d) ∧ t.pb d = bytes16 q := by
  rw [runCommands_cons (exec_henc_ok d hv), runCommands_cons (exec_e16_ok d (q := q) (by simpa using hq))]
  exact ⟨_, rfl, by simp, by simp, by simp⟩

/-- The conversion of a stereo file, command by command (R89): it completes, and the destination slot has the bytes
of the derived header and of the samples S2M makes. -/
theorem runCommands_fileS2m (mode : ChannelMode) (d : SlotNo) {a : SlotNo} {s : State} (hhb : 44 ≤ (s.hb a).length)
    (hpb : (s.pb a).length % 2 = 0) (hn : (unpackHeader (s.hb a)).numChannels = 2)
    (hb : (unpackHeader (s.hb a)).bitsPerSample = 16)
    (hr : (unpackHeader (s.hb a)).sampleRate.toNat < 2 ^ 31) :
    ∃ g t, deriveHeader (unpackHeader (s.hb a)) 1 16 (2 * ((s.pb a).length / 4)) = some g ∧
      runCommands (expandPseudo (.fileS2m mode d a)) s = .next t ∧ t.status = doneStatus s.status ∧
      t.hb d = packHeader g ∧ t.pb d = bytes16 (monoOf (modeFunction mode) (samples16 (s.pb a))) := by
  obtain ⟨u, hdecode, hust, huv, huh, huq⟩ := runCommands_decodeFile hhb hpb
  rw [← huh] at hn hb hr ⊢
  obtain ⟨g, hg, hmono⟩ := s2mBody_ok (modeFunction mode) d huv hn hb huq hr
  have hcount : (samples16 (s.pb a)).length / 2 = (s.pb a).length / 4 := by rw [samples16_length]; omega
  rw [hcount] at hg
  rw [← exec_s2mOf] at hmono
  obtain ⟨t, hencode, htst, hthb, htpb⟩ := runCommands_encodeFile (d := d)
    (s := ((u.setH d g).setSb d (.i16 (monoOf (modeFunction mode) (samples16 (s.pb a))))).setStatus
      (doneStatus u.status)) (by simp) (by simp; rfl)
  refine ⟨g, t, hg, ?_, by simpa [hust] using htst, by simpa using hthb, htpb⟩
  rw [expandPseudo, hdecode, runCommands_cons hmono, hencode]

/-- Settles O59: the destination slot holds the derived header's 44 bytes and the mode's samples, which R145 keeps in
range. -/
theorem fileConversionToMono : Obligations.FileConversionToMono := by
  rintro mode d a s ⟨hlegal, hwf, -, -, -⟩ hhb hpb hn hb hr
  obtain ⟨g, t, hg, hrun, hst, hthb, htpb⟩ := runCommands_fileS2m mode d (by omega) hpb hn hb hr
  have hcap : (s.pb a).length ≤ Config.pbMaxBound :=
    ((memory_wf_iff s).1 hwf a).2.trans ((pbMaxLegal_iff _).1 hlegal).2
  refine ⟨t, hrun, hst, by simp [hthb], ?_, by simp [htpb]; omega, fun n hlt => ?_⟩
  · rw [hthb, unpackHeader_packHeader]
    exact derivedFrom_of_deriveHeader hg (by omega) (by omega) (by omega)
  · have hlen : 2 * n + 1 < (samples16 (s.pb a)).length := by rw [samples16_length]; omega
    have hout := monoOf_getElem? (modeFunction mode) (samples16 (s.pb a)) n hlen
    obtain ⟨ho, hout⟩ := List.getElem?_eq_some_iff.1 hout
    rw [htpb, halfAt_bytes16 ho, hout, s16_u16_modeFunction, samples16_getElem, samples16_getElem,
      show 2 * (2 * n) = 4 * n by omega, show 2 * (2 * n + 1) = 4 * n + 2 by omega]
    cases mode <;> rfl

end Sys2Proof.Machine
end

section
/-!
PROOFS for the family of 30_encoding.md: the fields of a command's word (R80 to R83), the rows of R84, the reserved
words (R85), and the written form (R88).
-/
namespace Sys2Proof.Machine

/-! ### The decoder and the encoder, field by field (R80 to R83, R87) -/

/-- The 2-bit field that holds a slot number (R81). -/
def slotField (k : SlotNo) : BitVec 2 := .ofFin k

theorem slotField_toNat (k : SlotNo) : (slotField k).toNat = k.val := rfl
@[simp] theorem slotField_zero : slotField 0 = 0 := rfl
@[simp] theorem slotOf_slotField (k : SlotNo) : slotOf (slotField k) = k := rfl
@[simp] theorem slotField_slotOf (v : BitVec 2) : slotField (slotOf v) = v := rfl

/-- The six fields of a word are a command's: OPC and MODE those of its row, RD its destination, RS1 and RS2 its
sources, with 0 in RS2 where there is no second one, and ZERO 0 (R80). -/
structure HasFields (w : Half) (i : Instr) : Prop where
  opc : opcField w = opcField (rowOf i).pattern
  mode : modeField w = modeField (rowOf i).pattern
  rd : rdField w = slotField (destOf i)
  rs1 : rs1Field w = slotField ((sourcesOf i).getD 0 0)
  rs2 : rs2Field w = slotField ((sourcesOf i).getD 1 0)
  zero : zeroField w = 0#4

theorem encode_toNat (i : Instr) : (encode i).toNat = (opcField (rowOf i).pattern).toNat * 4096 +
    (modeField (rowOf i).pattern).toNat * 1024 + (destOf i).val * 256 + ((sourcesOf i).getD 0 0).val * 64 +
    ((sourcesOf i).getD 1 0).val * 16 := by
  cases i <;> simp [encode, wordOf, rowOf, destOf, sourcesOf, opcField, modeField] <;> omega

theorem hasFields_encode (i : Instr) : HasFields (encode i) i := by
  have hw := toNat_eq_fields (encode i)
  rw [encode_toNat] at hw
  constructor <;> apply BitVec.eq_of_toNat_eq
  case opc | mode => omega
  case rd | rs1 | rs2 => rw [slotField_toNat]; omega
  case zero => rw [BitVec.toNat_zero]; omega

/-- A word is the one with its fields. -/
theorem encode_of_hasFields {w : Half} {i : Instr} (h : HasFields w i) : encode i = w := by
  apply BitVec.eq_of_toNat_eq
  rw [toNat_eq_fields w, encode_toNat, h.opc, h.mode, h.rd, h.rs1, h.rs2, h.zero]
  simp only [slotField_toNat, BitVec.toNat_zero, Nat.add_zero]

theorem decode_of_hasFields {w : Half} {i : Instr} (h : HasFields w i) : decode w = .ok i := by
  obtain ⟨hopc, hmode, hrd, hrs1, hrs2, hzero⟩ := h
  unfold decode
  rw [hopc, hmode, hrd, hrs1, hrs2, hzero]
  cases i <;> simp [decodeTwoOperand, decodeS2M, opcField, modeField, rowOf, destOf, sourcesOf]

theorem decodeS2M_fields (mode : BitVec 2) (d a : SlotNo) :
    opcField (rowOf (decodeS2M mode d a)).pattern = 0x8 ∧ modeField (rowOf (decodeS2M mode d a)).pattern = mode ∧
    destOf (decodeS2M mode d a) = d ∧ sourcesOf (decodeS2M mode d a) = [a] := by
  obtain rfl | rfl | rfl | rfl : mode = 0 ∨ mode = 1 ∨ mode = 2 ∨ mode = 3 := by revert mode; decide
  all_goals simp [decodeS2M, rowOf, opcField, modeField, destOf, sourcesOf]

theorem decodeTwoOperand_fields {opc : BitVec 4} {d a : SlotNo} {i : Instr} (h : decodeTwoOperand opc d a = .ok i) :
    opcField (rowOf i).pattern = opc ∧ modeField (rowOf i).pattern = 0 ∧ destOf i = d ∧ sourcesOf i = [a] := by
  unfold decodeTwoOperand at h
  split_ifs at h <;> cases h <;> subst opc <;> simp [rowOf, opcField, modeField, destOf, sourcesOf]

/-- The three ways R87's algorithm reaches a command: S2M, M2S, and the other operation codes. -/
theorem hasFields_of_decode {w : Half} {i : Instr} (h : decode w = .ok i) : HasFields w i := by
  simp only [decode, ne_eq] at h
  split_ifs at h with hzero hopc hrs2 hopc hmode hmode hrs2
  · cases h
    obtain ⟨hrow, hrowMode, hd, ha⟩ := decodeS2M_fields (modeField w) (slotOf (rdField w)) (slotOf (rs1Field w))
    constructor <;> simp_all
  · cases h
    constructor <;> simp_all [rowOf, opcField, modeField, destOf, sourcesOf]
  · obtain ⟨hrow, hrowMode, hd, ha⟩ := decodeTwoOperand_fields h
    constructor <;> simp_all

/-- The decoder gives a command exactly on that command's word: both say that the word has the command's fields. -/
theorem decode_eq_ok_iff {w : Half} {i : Instr} : decode w = .ok i ↔ encode i = w :=
  ⟨fun h => encode_of_hasFields (hasFields_of_decode h), fun h => decode_of_hasFields (h ▸ hasFields_encode i)⟩

/-- The word of every command is covered by the command's row and well formed (R84, R85). -/
theorem rowMatch (i : Instr) : Laws.RowMatch.Statement i := by
  cases i with
  | hdec d a => exact Laws.RowMatch.hdec d a
  | henc d a => exact Laws.RowMatch.henc d a
  | d16 d a => exact Laws.RowMatch.d16 d a
  | e16 d a => exact Laws.RowMatch.e16 d a
  | d32 d a => exact Laws.RowMatch.d32 d a
  | e32 d a => exact Laws.RowMatch.e32 d a
  | s2mLeft d a => exact Laws.RowMatch.s2mLeft d a
  | s2mRight d a => exact Laws.RowMatch.s2mRight d a
  | s2mSum d a => exact Laws.RowMatch.s2mSum d a
  | s2mDiff d a => exact Laws.RowMatch.s2mDiff d a
  | m2s d a b => exact Laws.RowMatch.m2s d a b
  | mse d a => exact Laws.RowMatch.mse d a
  | msd d a => exact Laws.RowMatch.msd d a

/-- Settles O2: the decoder reads back the fields that the encoder writes. -/
theorem decodeUndoesEncode : Obligations.DecodeUndoesEncode := by
  intro i
  obtain ⟨-, -, hwf⟩ := rowMatch i
  exact ⟨decode_eq_ok_iff.2 rfl, hwf⟩

/-- Settles O3: a word that decodes to a command has its fields, and only the command's word has them. -/
theorem onlyItsOwnWordDecodesToACommand : Obligations.OnlyItsOwnWordDecodesToACommand :=
  fun _ _ => decode_eq_ok_iff.1

/-- Settles O1: each word is the one its command is encoded to. -/
theorem writtenWordsDecode : Obligations.WrittenWordsDecode := by
  simp only [Obligations.WrittenWordsDecode, decode_eq_ok_iff]
  decide

/-! ### The rows of R84 -/

/-- No two rows cover the same word: two patterns that agree under both masks are of one row. -/
theorem row_eq_of_covers {w : Half} {r r' : OpcodeRow} (hr : r ∈ opcodeRows) (hr' : r' ∈ opcodeRows)
    (h : r.covers w = true) (h' : r'.covers w = true) : r = r' := by
  have hrows : ∀ r ∈ opcodeRows, ∀ r' ∈ opcodeRows,
      r.pattern &&& r'.mask = r'.pattern &&& r.mask → r = r' := by decide
  apply hrows r hr r' hr'
  rw [OpcodeRow.covers, decide_eq_true_iff] at h h'
  rw [← h, ← h', BitVec.and_assoc, BitVec.and_assoc, BitVec.and_comm r.mask]

/-- A row compares a word with its pattern field by field. -/
theorem fields_of_covers {w : Half} {r : OpcodeRow} (h : r.covers w = true) :
    opcField w &&& opcField r.mask = opcField r.pattern ∧ modeField w &&& modeField r.mask = modeField r.pattern ∧
    rs2Field w &&& rs2Field r.mask = rs2Field r.pattern ∧ zeroField w &&& zeroField r.mask = zeroField r.pattern := by
  rw [OpcodeRow.covers, decide_eq_true_iff] at h
  simp only [← h, opcField, modeField, rs2Field, zeroField, BitVec.extractLsb'_and, and_self]

theorem pattern_wordWellFormed : ∀ r ∈ opcodeRows, wordWellFormed r.pattern = true := by decide

/-- The masks keep every field that R80 checks, RS2 but in M2S. -/
theorem masks_keep_checked_fields : ∀ r ∈ opcodeRows,
    opcField r.mask = .allOnes 4 ∧ modeField r.mask = .allOnes 2 ∧ zeroField r.mask = .allOnes 4 ∧
    (opcField r.pattern = 0x9 ∨ rs2Field r.mask = .allOnes 2) := by decide

/-- A word that a row covers passes the checks of R80 because the row's pattern does. -/
theorem wordWellFormed_of_covers {w : Half} {r : OpcodeRow} (hr : r ∈ opcodeRows) (h : r.covers w = true) :
    wordWellFormed w = true := by
  have hwf := pattern_wordWellFormed r hr
  obtain ⟨hopcMask, hmodeMask, hzeroMask, hrs2Mask⟩ := masks_keep_checked_fields r hr
  obtain ⟨hopc, hmode, hrs2, hzero⟩ := fields_of_covers h
  rw [hopcMask, BitVec.and_allOnes] at hopc
  rw [hmodeMask, BitVec.and_allOnes] at hmode
  rw [hzeroMask, BitVec.and_allOnes] at hzero
  rw [wordWellFormed, ← hopc, ← hmode, ← hzero] at hwf
  obtain hm2s | hrs2Mask := hrs2Mask
  · simp_all [wordWellFormed]
  · rw [hrs2Mask, BitVec.and_allOnes] at hrs2
    rwa [← hrs2] at hwf

theorem exists_decodeTwoOperand {opc : BitVec 4} (h : opcAssigned opc = true) (h8 : opc ≠ 0x8) (h9 : opc ≠ 0x9)
    (d a : SlotNo) : ∃ i, decodeTwoOperand opc d a = .ok i := by
  unfold decodeTwoOperand
  split_ifs
  case neg => simp_all [opcAssigned]
  all_goals exact ⟨_, rfl⟩

theorem exists_decode_of_wordWellFormed {w : Half} (h : wordWellFormed w = true) : ∃ i, decode w = .ok i := by
  simp only [wordWellFormed, Bool.and_eq_true, Bool.or_eq_true, decide_eq_true_eq] at h
  obtain ⟨⟨⟨hopc, hzero⟩, hmode⟩, hrs2⟩ := h
  by_cases h8 : opcField w = 0x8
  · refine ⟨decodeS2M (modeField w) (slotOf (rdField w)) (slotOf (rs1Field w)), ?_⟩
    simp_all [decode]
  by_cases h9 : opcField w = 0x9
  · refine ⟨.m2s (slotOf (rdField w)) (slotOf (rs1Field w)) (slotOf (rs2Field w)), ?_⟩
    simp_all [decode]
  · obtain ⟨i, hi⟩ := exists_decodeTwoOperand hopc h8 h9 (slotOf (rdField w)) (slotOf (rs1Field w))
    exact ⟨i, by simp_all [decode]⟩

theorem exists_decode_iff_wordWellFormed (w : Half) : (∃ i, decode w = .ok i) ↔ wordWellFormed w = true := by
  refine ⟨?_, exists_decode_of_wordWellFormed⟩
  rintro ⟨i, h⟩
  obtain ⟨-, -, hwf⟩ := rowMatch i
  exact decode_eq_ok_iff.1 h ▸ hwf

theorem rowOf_covers_of_decode {w : Half} {i : Instr} (h : decode w = .ok i) :
    rowOf i ∈ opcodeRows ∧ (rowOf i).covers w = true := by
  obtain ⟨hcov, hrow, -⟩ := rowMatch i
  exact ⟨hrow, decode_eq_ok_iff.1 h ▸ hcov⟩

theorem exists_decode_iff_covers (w : Half) :
    (∃ i, decode w = .ok i) ↔ ∃ r ∈ opcodeRows, r.covers w = true := by
  constructor
  · rintro ⟨i, h⟩
    exact ⟨rowOf i, rowOf_covers_of_decode h⟩
  · rintro ⟨r, hr, h⟩
    exact exists_decode_of_wordWellFormed (wordWellFormed_of_covers hr h)

/-- Settles O4: a decoded word is covered by its command's row, a covered word is well formed, and a well-formed word
is decoded. -/
theorem acceptedWordsAreTheTableRows : Obligations.AcceptedWordsAreTheTableRows :=
  ⟨exists_decode_iff_covers, fun _ _ => rowOf_covers_of_decode, fun _ _ _ => row_eq_of_covers,
    exists_decode_iff_wordWellFormed⟩

/-! ### The reserved words (R85) -/

theorem opcAssigned_eq_false_iff :
    ∀ o : BitVec 4, opcAssigned o = false ↔ o ∈ [0x0, 0x7, 0xC, 0xD, 0xE, 0xF] := by decide

theorem wordWellFormed_eq_false_iff (w : Half) : wordWellFormed w = false ↔
    opcField w ∈ [0x0, 0x7, 0xC, 0xD, 0xE, 0xF] ∨ zeroField w ≠ 0 ∨ (opcField w ≠ 0x8 ∧ modeField w ≠ 0) ∨
    (opcField w ≠ 0x9 ∧ rs2Field w ≠ 0) := by
  rw [← opcAssigned_eq_false_iff, wordWellFormed]
  simp only [Bool.and_eq_false_iff, Bool.or_eq_false_iff, decide_eq_false_iff_not, or_assoc, ne_eq]

theorem no_row_covers_iff (w : Half) : (∀ r ∈ opcodeRows, r.covers w = false) ↔ wordWellFormed w = false := by
  rw [← Bool.not_eq_true, ← exists_decode_iff_wordWellFormed, exists_decode_iff_covers]
  simp

theorem hostCmd_of_wordWellFormed_eq_false {w : Half} (h : wordWellFormed w = false) (s : State) :
    hostCmd w s = raise .illegalCommand s := by
  cases hd : decode w with
  | ok i => simp [(exists_decode_iff_wordWellFormed w).1 ⟨i, hd⟩] at h
  | error e => simp [hostCmd, hd]

/-- Settles O5: the words no row covers are those that fail a check of R80, and STATUS is updated as R205 has it for
IllegalCommand. -/
theorem reservedWordRaisesIllegalCommand : Obligations.ReservedWordRaisesIllegalCommand := by
  refine ⟨fun w => (no_row_covers_iff w).trans (wordWellFormed_eq_false_iff w), fun s w hact hw => ?_⟩
  have hstatus : faultStatus s.status 5 = statusAfter s.status (some .illegalCommand) Advisory.clear :=
    (statusAfter_fault s.status .illegalCommand).symm
  refine ⟨?_, ?_, ?_⟩
  · have hcmd := hostCmd_of_wordWellFormed_eq_false ((no_row_covers_iff w).1 hw) s
    rw [step_of_nextAction hact, performAction, hcmd, raise_eq]
    rfl
  · rw [hstatus, statusErr_statusAfter]
    rfl
  · have hsticky := stickyOf_statusAfter s.status (some .illegalCommand) Advisory.clear 5 (by decide) (by decide)
    rw [hstatus]
    simpa [stickyOf, FaultCode.code] using hsticky

/-! ### The written form (R88) -/

theorem digitText_toList (k : SlotNo) : (["0", "1", "2", "3"].getD k.val "").toList = [slotDigit k] := by
  revert k
  decide

theorem slotDigit_ne {c : Char} (hc : c ∉ ['0', '1', '2', '3']) (k : SlotNo) : slotDigit k ≠ c := by
  have hk : slotDigit k ∈ ['0', '1', '2', '3'] := by revert k; decide
  exact ne_of_mem_of_not_mem hk hc

/-- A command's text holds no `;`, is not empty, and neither begins nor ends with a space. -/
theorem commandText_chars (i : Instr) : ';' ∉ (commandText i).toList ∧ (commandText i).toList ≠ [] ∧
    (commandText i).toList.head? ≠ some ' ' ∧ (commandText i).toList.getLast? ≠ some ' ' := by
  have hsemi := slotDigit_ne (c := ';') (by decide)
  have hspace := slotDigit_ne (c := ' ') (by decide)
  rw [commandText_toList]
  cases i <;> simp [mnemonicOf, operandsOf, operandText_two, operandText_three, hspace, (hsemi _).symm]

theorem dropWhile_space {l : List Char} (h : l.head? ≠ some ' ') : l.dropWhile (· = ' ') = l := by
  cases l with
  | nil => rfl
  | cons c l => simpa using h

/-- Stripping a line with no comment takes the spaces after its text away (log entry 10). -/
theorem stripLine_append_spaces {l spaces : List Char} (hsemi : ';' ∉ l) (hne : l ≠ []) (hhead : l.head? ≠ some ' ')
    (hlast : l.getLast? ≠ some ' ') (hspaces : ∀ c ∈ spaces, c = ' ') : stripLine (l ++ spaces) = l := by
  have hkeep : (l ++ spaces).takeWhile (· ≠ ';') = l ++ spaces := by
    rw [List.takeWhile_eq_self_iff]
    intro c hc
    obtain hc | hc := List.mem_append.1 hc
    · simpa using ne_of_mem_of_not_mem hc hsemi
    · simp [hspaces c hc]
  have hfront : (l ++ spaces).dropWhile (· = ' ') = l ++ spaces :=
    dropWhile_space (by rwa [List.head?_append_of_ne_nil _ hne])
  have hback : (l ++ spaces).reverse.dropWhile (· = ' ') = l.reverse := by
    rw [List.reverse_append, List.dropWhile_append_of_pos (by simpa using hspaces),
      dropWhile_space (by rwa [List.head?_reverse])]
  simp only [stripLine, hkeep, hfront, hback, List.reverse_reverse]

theorem assembleLine_commandText (i : Instr) : assembleLine (commandText i) = some i := by
  obtain ⟨hsemi, hne, hhead, hlast⟩ := commandText_chars i
  apply assembleLine_eq
  simpa using stripLine_append_spaces (spaces := []) hsemi hne hhead hlast (by simp)

/-- A line that is a command's text, spaces and a comment holds that command. -/
theorem assembleLine_comment {line : String} {i : Instr} {spaces note : List Char} (hspaces : ∀ c ∈ spaces, c = ' ')
    (h : line.toList = (commandText i).toList ++ spaces ++ ';' :: note) : assembleLine line = some i := by
  obtain ⟨hsemi, hne, hhead, hlast⟩ := commandText_chars i
  have hsemi' : ';' ∉ (commandText i).toList ++ spaces := by
    rw [List.mem_append, not_or]
    exact ⟨hsemi, fun hm => absurd (hspaces _ hm) (by decide)⟩
  apply assembleLine_eq
  rw [h, stripLine_comment _ _ hsemi', stripLine_append_spaces hsemi hne hhead hlast hspaces]

/-- The word of a line is found from its command: the line is the command's text, the word its encoding. -/
theorem word_of_line (i : Instr) {line : String} {w : Half} (htext : commandText i = line) (hword : encode i = w) :
    (assembleLine line).map encode = some w := by
  rw [← htext, ← hword, assembleLine_commandText, Option.map_some]

/-- Settles O6: each text has its command's characters, and the assembler takes away a comment and the space before
it. -/
theorem writtenFormAssembles : Obligations.WrittenFormAssembles := by
  constructor
  · intro d a b digit two p hp
    have htext : commandText p.2 = p.1 := by
      revert p
      simp only [List.forall_mem_cons, ← String.toList_inj, commandText_toList, mnemonicOf, operandsOf, two, digit,
        operandText_two, operandText_three, String.toList_append, digitText_toList]
      simp
    refine ⟨htext, htext ▸ assembleLine_commandText p.2, fun note => ⟨?_, ?_⟩⟩
    · exact assembleLine_comment (spaces := []) (note := note.toList) (by simp) (by simp [htext])
    · exact assembleLine_comment (spaces := [' ']) (note := ' ' :: note.toList) (by simp) (by simp [htext])
  · simp only [List.forall_mem_cons]
    exact ⟨word_of_line (.hdec 0 0) rfl rfl, word_of_line (.hdec 1 1) rfl rfl, word_of_line (.henc 1 1) rfl rfl,
      word_of_line (.d16 0 0) rfl rfl, word_of_line (.e16 1 1) rfl rfl, word_of_line (.d32 1 1) rfl rfl,
      word_of_line (.e32 1 1) rfl rfl, word_of_line (.s2mLeft 3 2) rfl rfl, word_of_line (.s2mRight 3 2) rfl rfl,
      word_of_line (.s2mSum 1 0) rfl rfl, word_of_line (.s2mDiff 1 0) rfl rfl, word_of_line (.m2s 2 0 1) rfl rfl,
      word_of_line (.mse 1 0) rfl rfl, word_of_line (.msd 2 1) rfl rfl, by simp⟩

end Sys2Proof.Machine
end

section
/-!
PROOFS for the family of 40_header_codec.md: HDEC (R101), HENC (R102), their round trips (R103), and the fields of a
derived header (R106, R108).
-/
namespace Sys2Proof.Machine

/-! ### Frames (60_exceptions.md R206): what a write leaves alone -/

theorem changesOnly_refl (xHb xPb xH xSb : Option SlotNo) (s : State) : changesOnly xHb xPb xH xSb s s :=
  ⟨fun _ _ _ => rfl, fun _ _ _ => rfl, fun _ _ => ⟨rfl, rfl⟩, fun _ _ => rfl, rfl, rfl, rfl, rfl⟩

/-- STATUS has no part in a frame. -/
theorem changesOnly_setStatus {xHb xPb xH xSb : Option SlotNo} {s t : State} (h : changesOnly xHb xPb xH xSb s t)
    (w : Half) : changesOnly xHb xPb xH xSb s (t.setStatus w) := h

theorem changesOnly_setHb (s : State) (d : SlotNo) (q : List Byte) :
    changesOnly (some d) none none none s (s.setHb d q) := by
  refine ⟨fun k hk off => ?_, fun k _ off => by simp [State.readPb], fun k _ => by simp, fun k _ => by simp,
    rfl, rfl, rfl, rfl⟩
  have hne : k ≠ d := fun he => hk (congrArg some he.symm)
  simp [State.readHb, hne]

theorem changesOnly_setH (s : State) (d : SlotNo) (g : WaveHeader) :
    changesOnly none none (some d) none s (s.setH d g) := by
  refine ⟨fun k _ off => by simp [State.readHb], fun k _ off => by simp [State.readPb], fun k hk => ?_,
    fun k _ => by simp, rfl, rfl, rfl, rfl⟩
  have hne : k ≠ d := fun he => hk (congrArg some he.symm)
  simp [hne]

/-- A fault changes nothing but STATUS, so it meets every frame. -/
theorem changesOnly_of_faultsWith {i : Instr} {s t : State} {n : Nat} (hf : faultsWith i s n) (h : exec i s = .next t)
    (xHb xPb xH xSb : Option SlotNo) : changesOnly xHb xPb xH xSb s t := by
  cases hf.symm.trans h
  exact changesOnly_setStatus (changesOnly_refl ..) _

/-! ### HDEC (R100, R101) -/

/-- Settles O32: HDEC either raises TruncatedInput or writes `H[d]`. -/
theorem hdecFrame : Obligations.HdecFrame := by
  intro d a s t h
  by_cases hshort : (s.hb a).length < 44
  · exact changesOnly_of_faultsWith (faultsWith_hdec_of_short d hshort) h ..
  · cases (exec_hdec_ok d (Nat.not_lt.1 hshort)).symm.trans h
    exact changesOnly_setStatus (changesOnly_setH ..) _

/-- Settles O29: HDEC writes the unpacked header, each field of which is the tag or the little-endian integer at its
offset. -/
theorem hdecReadsTheFields : Obligations.HdecReadsTheFields := by
  intro d a s
  refine ⟨fun hlen => ?_, faultsWith_hdec_of_short d⟩
  have hexec := exec_hdec_ok d hlen
  refine ⟨_, hexec, rfl, hdecFrame d a s _ hexec, by simp, ?_⟩
  rw [h_setStatus, h_setH, if_pos rfl]
  exact ⟨rfl, wordAt_toNat _ 4 (by omega), rfl, rfl, wordAt_toNat _ 16 (by omega), halfAt_toNat _ 20 (by omega),
    halfAt_toNat _ 22 (by omega), wordAt_toNat _ 24 (by omega), wordAt_toNat _ 28 (by omega),
    halfAt_toNat _ 32 (by omega), halfAt_toNat _ 34 (by omega), rfl, wordAt_toNat _ 40 (by omega)⟩

/-! ### HENC (R100, R102) -/

/-- HENC of an invalid header register is InvalidOperand (R102). -/
theorem faultsWith_henc_of_invalid (d : SlotNo) {a : SlotNo} {s : State} (h : s.hv a = false) :
    faultsWith (.henc d a) s 6 :=
  (if_pos h).trans (raise_eq .invalidOperand s)

/-- Settles O33: HENC either raises InvalidOperand or writes `HB[d]`. -/
theorem hencFrame : Obligations.HencFrame := by
  intro d a s t h
  cases hv : s.hv a with
  | false => exact changesOnly_of_faultsWith (faultsWith_henc_of_invalid d hv) h ..
  | true =>
    cases (exec_henc_ok d hv).symm.trans h
    exact changesOnly_setStatus (changesOnly_setHb ..) _

/-- Byte k of `bytes_le` is `(v div 256^k) mod 256` (00_scope.md R12). -/
theorem bytesLe_eq_map_range (v n : Nat) :
    bytesLe v n = (List.range n).map fun k => BitVec.ofNat 8 (v / 256 ^ k % 256) := by
  induction n generalizing v with
  | zero => rfl
  | succ n ih =>
    have hbyte : BitVec.ofNat 8 v = BitVec.ofNat 8 (v % 256) := by
      apply BitVec.eq_of_toNat_eq
      simp
    simp [bytesLe, ih, List.range_succ_eq_map, Nat.div_div_eq_div_mul, Nat.pow_succ', hbyte]

/-- Settles O30: HENC writes the packed header, the bytes of which are those of its tags and integers in turn. -/
theorem hencWritesTheBytes : Obligations.HencWritesTheBytes := by
  intro d a s
  refine ⟨fun hv => ?_, faultsWith_henc_of_invalid d⟩
  have hexec := exec_henc_ok d hv
  refine ⟨_, hexec, rfl, hencFrame d a s _ hexec, ?_⟩
  rw [hb_setStatus, hb_setHb, if_pos rfl]
  simp only [packHeader, bytesLe_eq_map_range]
  rfl

/-! ### The round trips (R103) -/

/-- Settles O31: packing and unpacking undo each other, and each command writes what the other one reads. -/
theorem headerRoundTrips : Obligations.HeaderRoundTrips := by
  intro a m d s
  constructor
  · intro hv
    have hlen : 44 ≤ (((s.setHb m (packHeader (s.h a))).setStatus (doneStatus s.status)).hb m).length := by simp
    exact ⟨_, _, exec_henc_ok m hv, exec_hdec_ok d hlen, by simp, by simp⟩
  · intro hlen
    have hv : ((s.setH m (unpackHeader (s.hb a))).setStatus (doneStatus s.status)).hv m = true := by simp
    exact ⟨_, _, exec_hdec_ok m hlen.ge, exec_henc_ok d hv, by simp [packHeader_unpackHeader _ hlen]⟩

/-! ### The derived header (R106, R108) -/

/-- R108 from R106: the recomputed fields satisfy the three equations, the sample rate being copied. -/
theorem derivedFieldsHold_of_derivedFrom {h g : WaveHeader} {nch bps nbytes : Nat}
    (hd : derivedFrom h g nch bps nbytes) : derivedFieldsHold g ∧ g.subchunk2Size.toNat = nbytes := by
  obtain ⟨-, -, -, -, -, hrate, -, hnch, hbps, hblock, hbyte, hsize, hchunk⟩ := hd
  rw [derivedFieldsHold, hrate, hnch, hbps, hsize]
  exact ⟨⟨hchunk, hbyte, hblock⟩, rfl⟩

/-- What a transform wrote: a header derived for the sample buffer beside it. -/
theorem Wrote.derivedFrom_of_transform {s u : State} {i : Instr} (hw : Wrote s i u) (hi : isTransform i = true)
    (hs : s.Inv) :
    ∃ h nch bps, derivedFrom h (u.h (destOf i)) nch bps (u.sb (destOf i)).byteSize := by
  obtain ⟨hlegal, -, hfits, -, -⟩ := hs
  cases hw with
  | transform _ h g nch bps out _ hn hb _ hfit hg =>
    have hbound : out.byteSize ≤ Config.pbMaxBound := (hfit hfits).trans ((pbMaxLegal_iff _).1 hlegal).2
    refine ⟨h, nch, bps, ?_⟩
    simpa using derivedFrom_of_deriveHeader hg hn hb hbound
  | _ => cases hi

/-- Settles O57: a transform whose `ERR` is 0 completed, so its header is the one derived for its samples. -/
theorem derivedFieldsHoldAfterTransform : Obligations.DerivedFieldsHoldAfterTransform := by
  intro i s t hi hs h herr
  obtain ⟨adv, -, ⟨f, rfl⟩ | ⟨u, hw, rfl⟩⟩ := exec_next h
  · rw [setStatus_status, statusErr_statusAfter, errAfter_eq_zero_iff] at herr
    cases herr
  · obtain ⟨h, nch, bps, hd⟩ := hw.derivedFrom_of_transform hi hs
    exact derivedFieldsHold_of_derivedFrom hd

end Sys2Proof.Machine
end

section
/-!
PROOFS for the family of 41_sample_codec.md: D16 (R120), E16 (R121), D32 (R122), E32 (R123), their round trips (R124)
and their frames (60_exceptions.md R206).
-/
namespace Sys2Proof.Machine

/-! ### The frames (R206) -/

theorem changesOnly_setPb (s : State) (d : SlotNo) (q : List Byte) :
    changesOnly none (some d) none none s (s.setPb d q) := by
  refine ⟨fun k _ off => by simp [State.readHb], fun k hk off => ?_, fun k _ => by simp, fun k _ => by simp,
    rfl, rfl, rfl, rfl⟩
  have hne : k ≠ d := fun he => hk (congrArg some he.symm)
  simp [State.readPb, hne]

theorem changesOnly_setSb (s : State) (d : SlotNo) (b : SampleBuffer) :
    changesOnly none none none (some d) s (s.setSb d b) := by
  refine ⟨fun k _ off => by simp [State.readHb], fun k _ off => by simp [State.readPb], fun k _ => by simp,
    fun k hk => ?_, rfl, rfl, rfl, rfl⟩
  have hne : k ≠ d := fun he => hk (congrArg some he.symm)
  simp [hne]

/-- A command meets every frame that its writes meet: a fault changes nothing but STATUS. -/
theorem changesOnly_of_exec {xHb xPb xH xSb : Option SlotNo} {i : Instr} {s t : State} (h : exec i s = .next t)
    (hw : ∀ u, Wrote s i u → changesOnly xHb xPb xH xSb s u) : changesOnly xHb xPb xH xSb s t := by
  obtain ⟨adv, -, ⟨f, rfl⟩ | ⟨u, hu, rfl⟩⟩ := exec_next h
  · exact changesOnly_setStatus (changesOnly_refl ..) _
  · exact changesOnly_setStatus (hw u hu) _

/-- Settles O40: D16 and D32 write `S[d]` or nothing. -/
theorem sampleDecodersFrame : Obligations.SampleDecodersFrame := by
  rintro d a s t (h | h)
  · refine changesOnly_of_exec h fun u hu => ?_
    cases hu with
    | d16 => exact changesOnly_setSb ..
    | transform => contradiction
  · refine changesOnly_of_exec h fun u hu => ?_
    cases hu with
    | d32 => exact changesOnly_setSb ..
    | transform => contradiction

/-- Settles O41: E16 and E32 write `PB[d]` or nothing. -/
theorem sampleEncodersFrame : Obligations.SampleEncodersFrame := by
  rintro d a s t (h | h)
  · refine changesOnly_of_exec h fun u hu => ?_
    cases hu with
    | e16 => exact changesOnly_setPb ..
    | transform => contradiction
  · refine changesOnly_of_exec h fun u hu => ?_
    cases hu with
    | e32 => exact changesOnly_setPb ..
    | transform => contradiction

/-! ### The faults (R120 to R123, R125) -/

theorem faultsWith_d16_of_odd (d : SlotNo) {a : SlotNo} {s : State} (h : (s.pb a).length % 2 ≠ 0) :
    faultsWith (.d16 d a) s 2 :=
  (if_pos h).trans (raise_eq .misalignedBuffer s)

theorem faultsWith_d32_of_misaligned (d : SlotNo) {a : SlotNo} {s : State} (h : (s.pb a).length % 4 ≠ 0) :
    faultsWith (.d32 d a) s 2 :=
  (if_pos h).trans (raise_eq .misalignedBuffer s)

theorem faultsWith_e16_of_kind (d : SlotNo) {a : SlotNo} {s : State} (h : (s.sb a).kind ≠ .i16) :
    faultsWith (.e16 d a) s 6 := by
  have he : exec (.e16 d a) s = raise .invalidOperand s := by
    cases hb : s.sb a with
    | none | u32 => simp only [exec, execE16, hb]
    | i16 q => exact absurd ((kind_eq_i16_iff _).2 ⟨q, hb⟩) h
  exact he.trans (raise_eq .invalidOperand s)

theorem faultsWith_e32_of_kind (d : SlotNo) {a : SlotNo} {s : State} (h : (s.sb a).kind ≠ .u32) :
    faultsWith (.e32 d a) s 6 := by
  have he : exec (.e32 d a) s = raise .invalidOperand s := by
    cases hb : s.sb a with
    | none | i16 => simp only [exec, execE32, hb]
    | u32 q => exact absurd ((kind_eq_u32_iff _).2 ⟨q, hb⟩) h
  exact he.trans (raise_eq .invalidOperand s)

/-! ### The decoders (R120, R122) -/

/-- Settles O34: element n is the two bytes at offset 2n, read by the sign rule of R12. -/
theorem d16ReadsSignedSamples : Obligations.D16ReadsSignedSamples := by
  intro d a s
  refine ⟨fun hlen => ?_, faultsWith_d16_of_odd d⟩
  have hexec := exec_d16_ok d hlen
  refine ⟨_, samples16 (s.pb a), hexec, rfl, sampleDecodersFrame d a s _ (.inl hexec), by simp, ?_, fun n hn => ?_⟩
  · rw [samples16_length]; omega
  · have hin : 2 * n + 2 ≤ (s.pb a).length := by rw [samples16_length] at hn; omega
    rw [List.getD_eq_getElem _ _ hn, samples16_getElem, s16_eq, halfAt_toNat _ _ hin]

/-- Element n of a decoded payload is the four bytes at offset 4n. -/
theorem samples32_getElem {buf : List Byte} {n : Nat} (h : n < (samples32 buf).length) :
    (samples32 buf)[n] = wordAt buf (4 * n) := by
  rw [samples32_length] at h
  rw [List.getElem_eq_iff, samples32_getElem? buf n (by omega), wordAt_eq _ _ (by omega)]
  simp [show 4 * n < buf.length by omega, show 4 * n + 1 < buf.length by omega,
    show 4 * n + 2 < buf.length by omega, show 4 * n + 3 < buf.length by omega]

/-- Settles O36: element n is the four bytes at offset 4n. -/
theorem d32ReadsUnsignedWords : Obligations.D32ReadsUnsignedWords := by
  intro d a s
  refine ⟨fun hlen => ?_, faultsWith_d32_of_misaligned d⟩
  have hexec := exec_d32_ok d hlen
  refine ⟨_, samples32 (s.pb a), hexec, rfl, sampleDecodersFrame d a s _ (.inr hexec), by simp, ?_, fun n hn => ?_⟩
  · rw [samples32_length]; omega
  · have hin : 4 * n + 4 ≤ (s.pb a).length := by rw [samples32_length] at hn; omega
    rw [List.getD_eq_getElem _ _ hn, samples32_getElem, wordAt_toNat _ _ hin, le32]

/-! ### The encoders (R121, R123) -/

/-- Byte k of a pattern of any width is `(v div 256^k) mod 256` of its value (00_scope.md R12). -/
theorem toNat_byte {w : Nat} (p : BitVec w) (k : Nat) :
    (p.extractLsb' (8 * k) 8).toNat = p.toNat / 256 ^ k % 256 := by
  rw [BitVec.extractLsb'_toNat, Nat.shiftRight_eq_div_pow, Nat.pow_mul]

/-- Settles O35: the low and the high byte of an element are those of its value modulo 65536. -/
theorem e16WritesSignedSamples : Obligations.E16WritesSignedSamples := by
  intro d a s
  refine ⟨fun q hq => ?_, faultsWith_e16_of_kind d⟩
  have hexec := exec_e16_ok d hq
  refine ⟨_, hexec, rfl, sampleEncodersFrame d a s _ (.inl hexec), by simp, fun n hn => ?_⟩
  obtain ⟨hlow, hhigh⟩ := bytes16_getElem? q n hn
  have hlow_nat : (q[n].extractLsb' 0 8).toNat = q[n].toNat % 256 := by simp
  have hhigh_nat : (q[n].extractLsb' 8 8).toNat = q[n].toNat / 256 % 256 := by simpa using toNat_byte q[n] 1
  have hlt := q[n].isLt
  rw [pb_setStatus, pb_setPb, if_pos rfl, List.getD_eq_getElem _ _ hn, s16_emod]
  simp only [List.getD_eq_getElem?_getD, hlow, hhigh, Option.getD_some]
  omega

/-- Byte 4n + k of an encoded buffer is byte k of element n (R123). -/
theorem bytes32_getElem?_byte {q : List Word} {n k : Nat} (h : n < q.length) (hk : k < 4) :
    (bytes32 q)[4 * n + k]? = some (q[n].extractLsb' (8 * k) 8) := by
  obtain ⟨h0, h1, h2, h3⟩ := bytes32_getElem? q n h
  match k with
  | 0 => exact h0
  | 1 => exact h1
  | 2 => exact h2
  | 3 => exact h3

/-- Settles O37: byte 4n + k is byte k of element n. -/
theorem e32WritesUnsignedWords : Obligations.E32WritesUnsignedWords := by
  intro d a s
  refine ⟨fun q hq => ?_, faultsWith_e32_of_kind d⟩
  have hexec := exec_e32_ok d hq
  refine ⟨_, hexec, rfl, sampleEncodersFrame d a s _ (.inr hexec), by simp, fun n k hn hk => ?_⟩
  rw [pb_setStatus, pb_setPb, if_pos rfl, List.getD_eq_getElem?_getD, bytes32_getElem?_byte hn hk, Option.getD_some,
    toNat_byte, List.getD_eq_getElem _ _ hn]

/-! ### The round trips (R124) -/

/-- Settles O38: decoding and encoding undo each other, and each command of a pair reads what the other one wrote. -/
theorem sampleRoundTrips : Obligations.SampleRoundTrips := by
  intro a m d s
  refine ⟨fun q hq => ?_, fun q hq => ?_, fun hlen => ?_, fun hlen => ?_⟩
  · exact ⟨_, _, exec_e16_ok m hq, exec_d16_ok d (by simp), by simp⟩
  · exact ⟨_, _, exec_e32_ok m hq, exec_d32_ok d (by simp), by simp⟩
  · exact ⟨_, _, exec_d16_ok m hlen, exec_e16_ok d (q := samples16 (s.pb a)) (by simp),
      by simp [bytes16_samples16 _ hlen]⟩
  · exact ⟨_, _, exec_d32_ok m hlen, exec_e32_ok d (q := samples32 (s.pb a)) (by simp),
      by simp [bytes32_samples32 _ hlen]⟩

end Sys2Proof.Machine
end

section
/-!
PROOFS for the family of 42_stereo_to_mono.md: the four S2M commands where they complete (R140 to R145) and where they
fault (R140, R207), the 17-bit datapaths (R146), and the frame of the seven transforms (60_exceptions.md R206).
-/
namespace Sys2Proof.Machine

/-! ### Where S2M completes (R140 to R145) -/

/-- Element n of S2M's output is f of the pair n, read with a default as the statements read it (R140). -/
theorem monoOf_getD (f : Int → Int → Int) {q : List Half} {n : Nat} (h : n < (monoOf f q).length) :
    (monoOf f q).getD n 0 = u16 (f (s16 (q.getD (2 * n) 0)) (s16 (q.getD (2 * n + 1) 0))) := by
  rw [monoOf_length] at h
  have hr : 2 * n + 1 < q.length := by omega
  rw [List.getD_eq_getElem?_getD, monoOf_getElem? f q n hr, Option.getD_some, List.getD_eq_getElem _ _ (by omega),
    List.getD_eq_getElem _ _ hr]

/-- What the completed S2M of a mode leaves in its destination: the derived mono header, and the mode's function of
each pair (R140). -/
theorem exec_s2mOf_completes (mode : ChannelMode) (d : SlotNo) {a : SlotNo} {s : State} {q : List Half} (hs : s.Inv)
    (hv : s.hv a = true) (hn : (s.h a).numChannels = 2) (hb : (s.h a).bitsPerSample = 16) (hq : s.sb a = .i16 q)
    (hr : (s.h a).sampleRate.toNat < 2 ^ 31) :
    ∃ t o, exec (s2mOf mode d a) s = .next t ∧ t.status = doneStatus s.status ∧ t.hv d = true ∧
      derivedFrom (s.h a) (t.h d) 1 16 (2 * (q.length / 2)) ∧ t.sb d = .i16 o ∧ o.length = q.length / 2 ∧
      ∀ n, n < o.length →
        o.getD n 0 = u16 (modeFunction mode (s16 (q.getD (2 * n) 0)) (s16 (q.getD (2 * n + 1) 0))) := by
  obtain ⟨g, hg, hexec⟩ := s2mBody_ok (modeFunction mode) d hv hn hb hq hr
  have hcap : 2 * q.length ≤ Config.pbMaxBound := by
    simpa [hq, SampleBuffer.byteSize] using Inv_byteSize_le hs a
  have hd : derivedFrom (s.h a) g 1 16 (2 * (q.length / 2)) :=
    derivedFrom_of_deriveHeader hg (by omega) (by omega) (by omega)
  exact ⟨_, monoOf (modeFunction mode) q, (exec_s2mOf mode d a s).trans hexec, rfl, by simp, by simpa using hd,
    by simp, monoOf_length .., fun n => monoOf_getD _⟩

/-- Settles O42: the functions of LEFT and RIGHT give back a pattern of their pair. -/
theorem s2mKeepsOneChannel : Obligations.S2mKeepsOneChannel := by
  intro d a s q hs hv hn hb hq hr
  obtain ⟨t, o, hexec, hst, htv, hth, htq, hlen, hout⟩ := exec_s2mOf_completes .left d hs hv hn hb hq hr
  obtain ⟨t', o', hexec', hst', htv', hth', htq', hlen', hout'⟩ := exec_s2mOf_completes .right d hs hv hn hb hq hr
  exact ⟨⟨t, o, hexec, hst, htv, hth, htq, hlen, fun n hlt => (hout n hlt).trans (u16_s16 _)⟩,
    ⟨t', o', hexec', hst', htv', hth', htq', hlen', fun n hlt => (hout' n hlt).trans (u16_s16 _)⟩⟩

/-- `floor2` is the division that rounds down (00_scope.md R12). -/
theorem floor2_eq_fdiv (x : Int) : floor2 x = x.fdiv 2 := (Int.fdiv_eq_ediv_of_nonneg x (by decide)).symm

/-- Settles O43: SUM and DIFF stay in range (R145), so the element read as signed is the floored half itself. -/
theorem s2mHalvesSumAndDifference : Obligations.S2mHalvesSumAndDifference := by
  intro d a s q hs hv hn hb hq hr
  obtain ⟨t, o, hexec, hst, htv, hth, htq, hlen, hout⟩ := exec_s2mOf_completes .sum d hs hv hn hb hq hr
  obtain ⟨t', o', hexec', hst', htv', hth', htq', hlen', hout'⟩ := exec_s2mOf_completes .diff d hs hv hn hb hq hr
  refine ⟨⟨t, o, hexec, hst, htv, hth, htq, hlen, fun n hlt => ?_⟩,
    ⟨t', o', hexec', hst', htv', hth', htq', hlen', fun n hlt => ?_⟩⟩
  · rw [hout n hlt, s16_u16_modeFunction, ← floor2_eq_fdiv]
    rfl
  · rw [hout' n hlt, s16_u16_modeFunction, ← floor2_eq_fdiv]
    rfl

/-! ### Where S2M faults (R140, R207) -/

section
variable (f : Int → Int → Int) (d : SlotNo) {a : SlotNo} {s : State}

theorem s2mBody_of_invalid (hv : s.hv a = false) : s2mBody f d a s = raise .invalidOperand s := if_pos hv

theorem s2mBody_of_format (hv : s.hv a = true)
    (hf : ¬((s.h a).numChannels = 2 ∧ (s.h a).bitsPerSample = 16)) :
    s2mBody f d a s = raise .unsupportedFormat s := by
  rw [s2mBody, if_neg (by simp [hv]), if_pos hf]

theorem s2mBody_of_kind (hv : s.hv a = true) (hn : (s.h a).numChannels = 2) (hb : (s.h a).bitsPerSample = 16)
    (hk : (s.sb a).kind ≠ .i16) : s2mBody f d a s = raise .invalidOperand s := by
  cases hq : s.sb a with
  | none | u32 => simp [s2mBody, hv, hn, hb, hq]
  | i16 q => exact absurd ((kind_eq_i16_iff _).2 ⟨q, hq⟩) hk

/-- The derived byteRate is twice the sample rate, so it does not fit from 2^31 on (R107). -/
theorem s2mBody_of_rate (hv : s.hv a = true) (hn : (s.h a).numChannels = 2) (hb : (s.h a).bitsPerSample = 16)
    (hk : (s.sb a).kind = .i16) (hr : 2 ^ 31 ≤ (s.h a).sampleRate.toNat) :
    s2mBody f d a s = raise .rangeOverflow s := by
  obtain ⟨q, hq⟩ := (kind_eq_i16_iff _).1 hk
  have hnone : deriveHeader (s.h a) 1 16 (2 * (q.length / 2)) = none := by
    rw [deriveHeader_eq_none_iff]
    omega
  simp [s2mBody, hv, hn, hb, hq, deliver, hnone]

end

/-- The four S2M commands are the four modes of one command. -/
theorem exists_mode_of_mem {i : Instr} {d a : SlotNo}
    (h : i ∈ [Instr.s2mLeft d a, .s2mRight d a, .s2mSum d a, .s2mDiff d a]) : ∃ mode, i = s2mOf mode d a := by
  simp only [List.mem_cons, List.not_mem_nil, or_false] at h
  obtain rfl | rfl | rfl | rfl := h
  · exact ⟨.left, rfl⟩
  · exact ⟨.right, rfl⟩
  · exact ⟨.sum, rfl⟩
  · exact ⟨.diff, rfl⟩

/-- S2M stops with the fault its body raises. -/
theorem faultsWith_s2mOf (f : FaultCode) {mode : ChannelMode} {d a : SlotNo} {s : State}
    (h : s2mBody (modeFunction mode) d a s = raise f s) : faultsWith (s2mOf mode d a) s f.code :=
  (exec_s2mOf mode d a s).trans (h.trans (raise_eq f s))

/-- Settles O44: each of the four checks of the body raises its own fault, whatever the mode. -/
theorem s2mFaultsInOrder : Obligations.S2mFaultsInOrder := by
  intro d a s i hi
  obtain ⟨mode, rfl⟩ := exists_mode_of_mem hi
  exact ⟨fun hv => faultsWith_s2mOf .invalidOperand (s2mBody_of_invalid _ d hv),
    fun hv hf => faultsWith_s2mOf .unsupportedFormat (s2mBody_of_format _ d hv hf),
    fun hv hn hb hk => faultsWith_s2mOf .invalidOperand (s2mBody_of_kind _ d hv hn hb hk),
    fun hv hn hb hk hr => faultsWith_s2mOf .rangeOverflow (s2mBody_of_rate _ d hv hn hb hk hr)⟩

/-! ### The datapaths (R146) -/

theorem toInt_sext17 (p : Half) : (sext17 p).toInt = s16 p := BitVec.toInt_signExtend_of_le (by decide)

/-- 17 bits hold the sum of two signed 16-bit values (R143). -/
theorem toInt_sext17_add (l r : Half) : (sext17 l + sext17 r).toInt = s16 l + s16 r := by
  have hl := s16_range l
  have hr := s16_range r
  rw [BitVec.toInt_add, toInt_sext17, toInt_sext17]
  exact Int.bmod_eq_of_le (by omega) (by omega)

/-- 17 bits hold the difference of two signed 16-bit values (R144). -/
theorem toInt_sext17_sub (l r : Half) : (sext17 l - sext17 r).toInt = s16 l - s16 r := by
  have hl := s16_range l
  have hr := s16_range r
  rw [BitVec.toInt_sub, toInt_sext17, toInt_sext17]
  exact Int.bmod_eq_of_le (by omega) (by omega)

/-- Shifted right arithmetically by one place, a 17-bit value is its floored half, and that fits in 16 bits. -/
theorem s16_truncate_sshiftRight_one (x : BitVec 17) : s16 ((x.sshiftRight 1).truncate 16) = floor2 x.toInt := by
  have hlow := BitVec.le_toInt x
  have hhigh := BitVec.toInt_lt (x := x)
  have hhalf : (x.sshiftRight 1).toInt = x.toInt / 2 := by
    rw [BitVec.toInt_sshiftRight, Int.shiftRight_eq_div_pow]
    rfl
  have hbmod : s16 ((x.sshiftRight 1).truncate 16) = (x.sshiftRight 1).toInt.bmod (2 ^ 16) := by
    rw [s16, BitVec.truncate, BitVec.toInt_setWidth, BitVec.toInt_eq_toNat_bmod, Int.bmod_bmod_of_dvd (by decide)]
  rw [hbmod, hhalf, floor2]
  exact Int.bmod_eq_of_le (by omega) (by omega)

/-- Settles O45: the 17-bit sum and difference are exact, and so is the shift. -/
theorem halvingDatapathIsExact : Obligations.HalvingDatapathIsExact := fun l r =>
  ⟨(s16_truncate_sshiftRight_one _).trans (congrArg floor2 (toInt_sext17_add l r)),
    (s16_truncate_sshiftRight_one _).trans (congrArg floor2 (toInt_sext17_sub l r))⟩

/-! ### The frame of the seven transforms (60_exceptions.md R206, 70_reset_and_hazards.md R243) -/

/-- What a delivery writes: a header register and the sample buffer beside it. -/
theorem changesOnly_setH_setSb (s : State) (d : SlotNo) (g : WaveHeader) (out : SampleBuffer) :
    changesOnly none none (some d) (some d) s ((s.setH d g).setSb d out) := by
  obtain ⟨hhb, hpb, hh, hsb, -⟩ := changesOnly_setH s d g
  obtain ⟨hhb', hpb', hh', hsb', -⟩ := changesOnly_setSb (s.setH d g) d out
  have hany : ∀ k : SlotNo, none ≠ some k := fun k => (Option.some_ne_none k).symm
  refine ⟨fun k hk off => (hhb' k hk off).trans (hhb k hk off), fun k hk off => (hpb' k hk off).trans (hpb k hk off),
    fun k hk => ?_, fun k hk => (hsb' k hk).trans (hsb k (hany k)), rfl, rfl, rfl, rfl⟩
  obtain ⟨hv, hreg⟩ := hh k hk
  obtain ⟨hv', hreg'⟩ := hh' k (hany k)
  exact ⟨hv'.trans hv, hreg'.trans hreg⟩

theorem isTransform_of_mem {i : Instr} {d a b : SlotNo}
    (h : i ∈ [Instr.s2mLeft d a, .s2mRight d a, .s2mSum d a, .s2mDiff d a, .mse d a, .msd d a, .m2s d a b]) :
    isTransform i = true := by
  simp only [List.mem_cons, List.not_mem_nil, or_false] at h
  obtain rfl | rfl | rfl | rfl | rfl | rfl | rfl := h <;> rfl

/-- Settles O58: a transform writes `H[d]` and `S[d]`, or nothing. -/
theorem transformsFrame : Obligations.TransformsFrame := by
  rintro i s t ⟨d, a, b, hmem⟩ h
  have hi := isTransform_of_mem hmem
  refine changesOnly_of_exec h fun u hu => ?_
  cases hu with
  | transform => exact changesOnly_setH_setSb ..
  | _ => cases hi

end Sys2Proof.Machine
end

section
/-!
PROOFS for the family of 43_mono_to_stereo.md: M2S where it completes and where it faults (R160, R161), M2S of a slot
with itself (R162), and S2M after M2S (R163).
-/
namespace Sys2Proof.Machine

/-! ### Where M2S faults (R160, R107, R207) -/

/-- The header test of R160 step 2 for both inputs, field by field. -/
theorem isMono16_and_iff (hl hr : WaveHeader) : (isMono16 hl ∧ isMono16 hr) ↔
    (hl.numChannels = 1 ∧ hr.numChannels = 1 ∧ hl.bitsPerSample = 16 ∧ hr.bitsPerSample = 16) := by
  simp only [isMono16, Bool.and_eq_true, decide_eq_true_eq]
  tauto

/-- The derived byteRate is four times the left sample rate, so it does not fit from 2^30 on (R107). -/
theorem m2sCombine_of_overflow (d : SlotNo) {hl : WaveHeader} {ql qr : List Half} (adv : Advisory) {s : State}
    (h : s.pbMax < 4 * min ql.length qr.length ∨ 2 ^ 30 ≤ hl.sampleRate.toNat) :
    m2sCombine d hl ql qr adv s = raiseAdvising .rangeOverflow adv s := by
  by_cases hcap : s.pbMax < 4 * min ql.length qr.length
  · exact if_pos hcap
  · have hnone : deriveHeader hl 2 16 (4 * min ql.length qr.length) = none := by
      rw [deriveHeader_eq_none_iff]
      omega
    simp only [m2sCombine, if_neg hcap, deliver, hnone]

section
variable (d : SlotNo) {a b : SlotNo} {s : State}

theorem execM2s_of_invalid (hv : s.hv a = false ∨ s.hv b = false) : execM2s d a b s = raise .invalidOperand s :=
  if_pos hv

variable (hva : s.hv a = true) (hvb : s.hv b = true)
include hva hvb

theorem execM2s_of_format (hf : ¬(isMono16 (s.h a) ∧ isMono16 (s.h b))) :
    execM2s d a b s = raise .unsupportedFormat s := by
  rw [execM2s, if_neg (by simp [hva, hvb]), if_pos hf]

variable (hf : isMono16 (s.h a) ∧ isMono16 (s.h b))
include hf

theorem execM2s_of_kind (hk : (s.sb a).kind ≠ .i16 ∨ (s.sb b).kind ≠ .i16) :
    execM2s d a b s = raiseAdvising .invalidOperand (m2sAdvisory (s.h a) (s.h b)) s := by
  rw [execM2s, if_neg (by simp [hva, hvb]), if_neg (not_not_intro hf)]
  split
  case h_1 ql qr hqa hqb => simp [hqa, hqb, SampleBuffer.kind] at hk
  case h_2 => rfl

theorem execM2s_of_i16 {ql qr : List Half} (hqa : s.sb a = .i16 ql) (hqb : s.sb b = .i16 qr) :
    execM2s d a b s = m2sCombine d (s.h a) ql qr (m2sAdvisory (s.h a) (s.h b)) s := by
  rw [execM2s, if_neg (by simp [hva, hvb]), if_neg (not_not_intro hf), hqa, hqb]

end

/-- Settles O48: each check raises its own fault, from the comparison on with the advisory. -/
theorem m2sFaultsInOrder : Obligations.M2sFaultsInOrder := by
  intro d a b s formats wrate wlen
  refine ⟨fun hv => (execM2s_of_invalid d hv).trans (raise_eq _ s), fun hva hvb hf => ?_, fun hva hvb hf hk => ?_,
    fun ql qr hva hvb hf hqa hqb hover => ?_⟩
  · exact (execM2s_of_format d hva hvb (mt (isMono16_and_iff ..).1 hf)).trans (raise_eq _ s)
  · exact (execM2s_of_kind d hva hvb ((isMono16_and_iff ..).2 hf) hk).trans (raiseAdvising_eq ..)
  · exact ((execM2s_of_i16 d hva hvb ((isMono16_and_iff ..).2 hf) hqa hqb).trans
      (m2sCombine_of_overflow d _ hover)).trans (raiseAdvising_eq ..)

/-! ### Where M2S completes (R160, R161) -/

/-- What M2S needs of its two inputs and of the capacity to complete (R160). -/
structure M2sReady (s : State) (a b : SlotNo) (ql qr : List Half) : Prop where
  left_valid : s.hv a = true
  right_valid : s.hv b = true
  left_mono : (s.h a).numChannels = 1
  right_mono : (s.h b).numChannels = 1
  left_bits : (s.h a).bitsPerSample = 16
  right_bits : (s.h b).bitsPerSample = 16
  left_samples : s.sb a = .i16 ql
  right_samples : s.sb b = .i16 qr
  room : 4 * min ql.length qr.length ≤ s.pbMax
  rate : (s.h a).sampleRate.toNat < 2 ^ 30

theorem M2sReady.size_le {s : State} {a b : SlotNo} {ql qr : List Half} (h : M2sReady s a b ql qr) (hs : s.Inv) :
    4 * min ql.length qr.length ≤ Config.pbMaxBound := by
  obtain ⟨hlegal, -⟩ := hs
  exact h.room.trans ((pbMaxLegal_iff _).1 hlegal).2

/-- What the completed M2S leaves in STATUS and in its destination: the inputs interleaved, and the header derived from
the left one for what was produced. -/
theorem M2sReady.exec_m2s {s : State} {a b : SlotNo} {ql qr : List Half} (h : M2sReady s a b ql qr) (hs : s.Inv)
    (d : SlotNo) :
    ∃ t, exec (.m2s d a b) s = .next t ∧
      t.status = withAdvisory (doneStatus s.status) ((s.h a).sampleRate ≠ (s.h b).sampleRate)
        ((s.h a).subchunk2Size ≠ (s.h b).subchunk2Size) ∧
      t.hv d = true ∧ derivedFrom (s.h a) (t.h d) 2 16 (4 * min ql.length qr.length) ∧
      t.sb d = .i16 (interleave (ql.zip qr)) := by
  obtain ⟨g, hg, hexec⟩ := exec_m2s_ok d h.left_valid h.right_valid h.left_mono h.right_mono h.left_bits
    h.right_bits h.left_samples h.right_samples h.room h.rate
  have hd := derivedFrom_of_deriveHeader hg (by omega) (by omega) (h.size_le hs)
  exact ⟨_, hexec, rfl, by simp, by simpa using hd, by simp⟩

/-- Elements 2n and 2n + 1 of the interleaved inputs are element n of the left and of the right one. -/
theorem interleave_zip_getD {ql qr : List Half} {n : Nat} (h : n < min ql.length qr.length) :
    (interleave (ql.zip qr)).getD (2 * n) 0 = ql.getD n 0 ∧
      (interleave (ql.zip qr)).getD (2 * n + 1) 0 = qr.getD n 0 := by
  obtain ⟨hl, hr⟩ := Nat.lt_min.1 h
  have hpair : (ql.zip qr)[n]? = some (ql[n], qr[n]) := List.getElem?_zip_eq_some.2 (by simp)
  simp only [List.getD_eq_getElem?_getD, interleave_left, interleave_right, hpair]
  simp [hl, hr]

/-- Settles O47: the elements are those of the interleaved inputs. -/
theorem m2sInterleaves : Obligations.M2sInterleaves := by
  intro d a b s ql qr hs hva hvb hna hnb hba hbb hqa hqb hroom hrate
  obtain ⟨t, hexec, hst, htv, hth, htq⟩ :=
    M2sReady.exec_m2s ⟨hva, hvb, hna, hnb, hba, hbb, hqa, hqb, hroom, hrate⟩ hs d
  exact ⟨t, interleave (ql.zip qr), hexec, hst, htv, hth, htq, by simp, fun n => interleave_zip_getD⟩

/-! ### M2S of a slot with itself (R162) -/

theorem runCommands_singleton (i : Instr) (s : State) : runCommands [i] s = exec i s := by
  rw [runCommands]
  cases exec i s <;> rfl

/-- A header equals itself (R162). -/
theorem m2sAdvisory_self (h : WaveHeader) : m2sAdvisory h h = Advisory.clear := by
  simp [m2sAdvisory, Advisory.clear]

/-- The two ways M2S of a slot with itself can end: with a fault, or with the one signal on both channels. -/
theorem execM2s_self_cases (d a : SlotNo) (s : State) :
    (∃ f, execM2s d a a s = raise f s) ∨
      ∃ q g, s.sb a = .i16 q ∧
        execM2s d a a s = complete ((s.setH d g).setSb d (.i16 (interleave (q.zip q)))) := by
  by_cases hv : s.hv a = true
  case neg => exact .inl ⟨_, execM2s_of_invalid d (.inl (Bool.eq_false_of_not_eq_true hv))⟩
  by_cases hf : isMono16 (s.h a) ∧ isMono16 (s.h a)
  case neg => exact .inl ⟨_, execM2s_of_format d hv hv hf⟩
  by_cases hk : (s.sb a).kind = .i16
  case neg =>
    have hexec := execM2s_of_kind d hv hv hf (.inl hk)
    rw [m2sAdvisory_self] at hexec
    exact .inl ⟨_, hexec⟩
  obtain ⟨q, hq⟩ := (kind_eq_i16_iff _).1 hk
  have hexec := execM2s_of_i16 d hv hv hf hq hq
  rw [m2sAdvisory_self] at hexec
  by_cases hcap : s.pbMax < 4 * min q.length q.length
  · exact .inl ⟨_, hexec.trans (m2sCombine_of_overflow d _ (.inl hcap))⟩
  rw [m2sCombine, if_neg hcap] at hexec
  obtain ⟨-, hd⟩ | ⟨-, g, -, hd⟩ := deliver_cases d (s.h a) 2 16 (4 * min q.length q.length)
    (.i16 (interleave (q.zip q))) Advisory.clear s
  · exact .inl ⟨_, hexec.trans hd⟩
  · exact .inr ⟨q, g, hq, hexec.trans hd⟩

/-- Settles O49: DUP leaves a clear advisory both ways, and `ERR` is 0 only when it completed. -/
theorem dupCopiesToBothChannels : Obligations.DupCopiesToBothChannels := by
  intro d a s t h
  rw [expandPseudo, runCommands_singleton, exec] at h
  obtain ⟨f, hf⟩ | ⟨q, g, hq, hc⟩ := execM2s_self_cases d a s
  · have hraise := hf.symm.trans h
    have hadv : statusWrate t.status = false ∧ statusWlen t.status = false := by
      cases hraise
      simp [Advisory.clear]
    obtain ⟨hwrate, hwlen⟩ := hadv
    exact ⟨hwrate, hwlen, fun herr => absurd herr (statusErr_ne_zero_of_raise hraise)⟩
  · cases hc.symm.trans h
    refine ⟨by simp [Advisory.clear], by simp [Advisory.clear], fun _ => ⟨q, interleave (q.zip q), hq, by simp,
      by simp, fun n hn => interleave_zip_getD ?_⟩⟩
    rwa [Nat.min_self]

/-! ### S2M after M2S (R163) -/

/-- A derived header keeps the copied fields of the one it came from, so the next header derived has them too. -/
theorem derivedFrom_trans {h g k : WaveHeader} {nch bps nbytes nch' bps' nbytes' : Nat}
    (hg : derivedFrom h g nch bps nbytes) (hk : derivedFrom g k nch' bps' nbytes') :
    derivedFrom h k nch' bps' nbytes' := by
  obtain ⟨hid, hformat, hid1, hsize1, haudio, hrate, hid2, -⟩ := hg
  simpa only [derivedFrom, hid, hformat, hid1, hsize1, haudio, hrate, hid2] using hk

/-- The fields of a derived header that the next transform tests. -/
theorem format_of_derivedFrom {h g : WaveHeader} {nch bps nbytes : Nat} (hg : derivedFrom h g nch bps nbytes) :
    g.numChannels = BitVec.ofNat 16 nch ∧ g.bitsPerSample = BitVec.ofNat 16 bps ∧ g.sampleRate = h.sampleRate := by
  obtain ⟨-, -, -, -, -, hrate, -, hnch, hbps, -⟩ := hg
  exact ⟨by simp [← hnch], by simp [← hbps], hrate⟩

/-- LEFT of an interleaved buffer is the left channel, up to the shorter length. -/
theorem monoOf_modeLeft_interleave (ql qr : List Half) :
    monoOf modeLeft (interleave (ql.zip qr)) = ql.take (min ql.length qr.length) := by
  simp only [monoOf, stereoPairs_interleave, modeLeft, u16_s16]
  rw [List.zip_eq_zip_take_min]
  exact List.map_fst_zip (by simp)

/-- RIGHT of an interleaved buffer is the right channel, up to the shorter length. -/
theorem monoOf_modeRight_interleave (ql qr : List Half) :
    monoOf modeRight (interleave (ql.zip qr)) = qr.take (min ql.length qr.length) := by
  simp only [monoOf, stereoPairs_interleave, modeRight, u16_s16]
  rw [List.zip_eq_zip_take_min]
  exact List.map_snd_zip (by simp)

/-- After M2S into slot `m`, every mode of S2M completes on it: its function of the pairs, and a mono header with the
left input's copied fields. -/
theorem M2sReady.s2m_completes {s : State} {a b : SlotNo} {ql qr : List Half} (h : M2sReady s a b ql qr) (hs : s.Inv)
    (m : SlotNo) :
    ∃ t, exec (.m2s m a b) s = .next t ∧ ∀ mode d, ∃ u, exec (s2mOf mode d m) t = .next u ∧
      u.sb d = .i16 (monoOf (modeFunction mode) (interleave (ql.zip qr))) ∧
      derivedFrom (s.h a) (u.h d) 1 16 (2 * min ql.length qr.length) := by
  obtain ⟨t, hexec, -, htv, hth, htq⟩ := h.exec_m2s hs m
  obtain ⟨hnch, hbps, hrate⟩ := format_of_derivedFrom hth
  have hlen : (interleave (ql.zip qr)).length / 2 = min ql.length qr.length := by simp
  have hsize := h.size_le hs
  have hlimit : (t.h m).sampleRate.toNat < 2 ^ 31 := by
    rw [hrate]
    exact h.rate.trans (by decide)
  refine ⟨t, hexec, fun mode d => ?_⟩
  obtain ⟨k, hk, hbody⟩ := s2mBody_ok (modeFunction mode) d htv hnch hbps htq hlimit
  rw [hlen] at hk
  have hd := derivedFrom_of_deriveHeader hk (by omega) (by omega) (by omega)
  exact ⟨_, (exec_s2mOf mode d m t).trans hbody, by simp, by simpa using derivedFrom_trans hth hd⟩

/-- Settles O50: LEFT and RIGHT undo the interleaving. -/
theorem channelsRoundTrip : Obligations.ChannelsRoundTrip := by
  intro m a b d s ql qr hs hva hvb hna hnb hba hbb hqa hqb hroom hrate
  obtain ⟨t, ht, hmono⟩ :=
    M2sReady.s2m_completes ⟨hva, hvb, hna, hnb, hba, hbb, hqa, hqb, hroom, hrate⟩ hs m
  obtain ⟨u, hu, husb, huh⟩ := hmono .left d
  obtain ⟨v, hv, hvsb, hvh⟩ := hmono .right d
  rw [modeFunction, monoOf_modeLeft_interleave] at husb
  rw [modeFunction, monoOf_modeRight_interleave] at hvsb
  refine ⟨t, u, v, ht, hu, hv, husb, hvsb, huh, hvh, fun hlen => ?_⟩
  rw [husb, hvsb, hqa, hqb, List.take_of_length_le (by omega), List.take_of_length_le (by omega)]
  exact ⟨rfl, rfl⟩

end Sys2Proof.Machine
end

section
/-!
PROOFS for the family of 44_midside32.md: MSE and MSD where they complete (R170 to R172) and where they fault (R171,
R172, R207), MSD after MSE (R173), and the saturating 17-bit datapath (R174).
-/
namespace Sys2Proof.Machine

/-! ### Where MSE completes (R170, R171) -/

/-- Word n of MSE's output packs elements 2n and 2n + 1 (R171). -/
theorem packedPairs_getD {q : List Half} {n : Nat} (h : n < q.length / 2) :
    ((stereoPairs q).map packPair).getD n 0 = packPair (q.getD (2 * n) 0, q.getD (2 * n + 1) 0) := by
  have hr : 2 * n + 1 < q.length := by omega
  rw [List.getD_eq_getElem?_getD, List.getElem?_map, stereoPairs_getElem? q n hr, List.getD_eq_getElem _ _ (by omega),
    List.getD_eq_getElem _ _ hr]
  rfl

/-- A stereo buffer within the capacity leaves room for its packed form, an unmatched last sample left out. -/
theorem packed_size_le {s : State} (hs : s.Inv) {a : SlotNo} {q : List Half} (hq : s.sb a = .i16 q) :
    4 * (q.length / 2) ≤ Config.pbMaxBound := by
  have hcap : 2 * q.length ≤ Config.pbMaxBound := by
    simpa [hq, SampleBuffer.byteSize] using Inv_byteSize_le hs a
  omega

/-- What the completed MSE leaves in STATUS and in its destination: the packed pairs, and the derived header. -/
theorem exec_mse_completes (d : SlotNo) {a : SlotNo} {s : State} {q : List Half} (hs : s.Inv) (hv : s.hv a = true)
    (hn : (s.h a).numChannels = 2) (hb : (s.h a).bitsPerSample = 16) (hq : s.sb a = .i16 q)
    (hr : (s.h a).sampleRate.toNat < 2 ^ 30) :
    ∃ t, exec (.mse d a) s = .next t ∧ t.status = doneStatus s.status ∧ t.hv d = true ∧
      derivedFrom (s.h a) (t.h d) 1 32 (4 * (q.length / 2)) ∧ t.sb d = .u32 ((stereoPairs q).map packPair) := by
  obtain ⟨g, hg, hexec⟩ := exec_mse_ok d hv hn hb hq hr
  have hd := derivedFrom_of_deriveHeader hg (by omega) (by omega) (packed_size_le hs hq)
  exact ⟨_, hexec, rfl, by simp, by simpa using hd, by simp⟩

/-- Settles O51: the halves of a packed word are the two patterns of its pair. -/
theorem msePacksPairs : Obligations.MsePacksPairs := by
  intro d a s q hs hv hn hb hq hr
  obtain ⟨t, hexec, hst, htv, hth, htq⟩ := exec_mse_completes d hs hv hn hb hq hr
  refine ⟨t, (stereoPairs q).map packPair, hexec, hst, htv, hth, htq, by simp, fun n hlt => ?_⟩
  rw [List.length_map, stereoPairs_length] at hlt
  rw [packedPairs_getD hlt]
  exact ⟨packPair_high _, packPair_low _⟩

/-! ### Where MSD completes (R172) -/

/-- Elements 2n and 2n + 1 of MSD's output are the pair of word n (R172, R174's lane rule). -/
theorem unpackedWords_getD {q : List Word} {n : Nat} (h : n < q.length) :
    (interleave (q.map unpackWord)).getD (2 * n) 0 = (unpackWord (q.getD n 0)).1 ∧
      (interleave (q.map unpackWord)).getD (2 * n + 1) 0 = (unpackWord (q.getD n 0)).2 := by
  simp only [List.getD_eq_getElem?_getD, interleave_left, interleave_right, List.getElem?_map]
  simp [h]

/-- The saturated value fits in 16 bits, so its pattern read as signed is the value. -/
@[simp] theorem s16_u16_clamp16 (x : Int) : s16 (u16 (clamp16 x)) = clamp16 x :=
  s16_u16 _ (clamp16_range x).1 (clamp16_range x).2

/-- What the completed MSD leaves in STATUS and in its destination: the unpacked words, and the derived header. -/
theorem exec_msd_completes (d : SlotNo) {a : SlotNo} {s : State} {q : List Word}
    (hsize : 4 * q.length ≤ Config.pbMaxBound) (hv : s.hv a = true) (hn : (s.h a).numChannels = 1)
    (hb : (s.h a).bitsPerSample = 32) (hq : s.sb a = .u32 q) (hr : (s.h a).sampleRate.toNat < 2 ^ 30) :
    ∃ t, exec (.msd d a) s = .next t ∧ t.status = doneStatus s.status ∧ t.hv d = true ∧
      derivedFrom (s.h a) (t.h d) 2 16 (4 * q.length) ∧ t.sb d = .i16 (interleave (q.map unpackWord)) := by
  obtain ⟨g, hg, hexec⟩ := exec_msd_ok d hv hn hb hq hr
  have hd := derivedFrom_of_deriveHeader hg (by omega) (by omega) hsize
  exact ⟨_, hexec, rfl, by simp, by simpa using hd, by simp⟩

/-- Settles O52: each element is a saturated value, and saturation is the max and min of the statement. -/
theorem msdUnpacksWithSaturation : Obligations.MsdUnpacksWithSaturation := by
  intro d a s q hs hv hn hb hq hr
  have hsize : 4 * q.length ≤ Config.pbMaxBound := by
    simpa [hq, SampleBuffer.byteSize] using Inv_byteSize_le hs a
  obtain ⟨t, hexec, hst, htv, hth, htq⟩ := exec_msd_completes d hsize hv hn hb hq hr
  refine ⟨t, interleave (q.map unpackWord), hexec, hst, htv, hth, htq, by simp, fun n hlt => ?_⟩
  obtain ⟨hleft, hright⟩ := unpackedWords_getD hlt
  rw [hleft, hright, unpackWord, s16_u16_clamp16, s16_u16_clamp16, clamp16_eq, clamp16_eq]
  exact ⟨rfl, rfl⟩

/-! ### Where MSE and MSD fault (R171, R172, R107, R207) -/

/-- The checks that MSE and MSD share, in their order, each with its fault, then `rest` (R171, R172). -/
def afterChecks (nch bps : Half) (kind : SampleKind) (a : SlotNo) (s : State)
    (rest : Host.Outcome State Fault Refusal) : Host.Outcome State Fault Refusal :=
  if s.hv a = false then raise .invalidOperand s
  else if ¬((s.h a).numChannels = nch ∧ (s.h a).bitsPerSample = bps) then raise .unsupportedFormat s
  else if (s.sb a).kind ≠ kind then raise .invalidOperand s
  else rest

theorem exec_mse_eq_afterChecks (d a : SlotNo) (s : State) : ∃ nbytes out, exec (.mse d a) s =
    afterChecks 2 16 .i16 a s (deliver d (s.h a) 1 32 nbytes out Advisory.clear s) := by
  cases hq : s.sb a with
  | i16 q => exact ⟨_, _, by simp only [exec, execMse, afterChecks, hq]; rfl⟩
  | none | u32 => exact ⟨0, .none, by simp only [exec, execMse, afterChecks, hq]; rfl⟩

theorem exec_msd_eq_afterChecks (d a : SlotNo) (s : State) : ∃ nbytes out, exec (.msd d a) s =
    afterChecks 1 32 .u32 a s (deliver d (s.h a) 2 16 nbytes out Advisory.clear s) := by
  cases hq : s.sb a with
  | u32 q => exact ⟨_, _, by simp only [exec, execMsd, afterChecks, hq]; rfl⟩
  | none | i16 => exact ⟨0, .none, by simp only [exec, execMsd, afterChecks, hq]; rfl⟩

/-- The derived byteRate is four times the sample rate, so it does not fit from 2^30 on (R107). -/
theorem deliver_of_rate (d : SlotNo) {h : WaveHeader} {nch bps : Nat} (nbytes : Nat) (out : SampleBuffer)
    (adv : Advisory) (s : State) (hframe : nch * bps = 32) (hr : 2 ^ 30 ≤ h.sampleRate.toNat) :
    deliver d h nch bps nbytes out adv s = raiseAdvising .rangeOverflow adv s := by
  have hnone : deriveHeader h nch bps nbytes = none := by
    rw [deriveHeader_eq_none_iff, Nat.mul_assoc, hframe]
    omega
  simp only [deliver, hnone]

/-- The first check that fails decides the fault (R207). -/
theorem faultsWith_of_afterChecks {i : Instr} {d a : SlotNo} {s : State} {nch bps : Half} {kind : SampleKind}
    {nch' bps' : Nat} (hframe : nch' * bps' = 32)
    (hexec : ∃ nbytes out, exec i s =
      afterChecks nch bps kind a s (deliver d (s.h a) nch' bps' nbytes out Advisory.clear s)) :
    (s.hv a = false → faultsWith i s 6) ∧
    (s.hv a = true → ¬((s.h a).numChannels = nch ∧ (s.h a).bitsPerSample = bps) → faultsWith i s 3) ∧
    (s.hv a = true → (s.h a).numChannels = nch → (s.h a).bitsPerSample = bps → (s.sb a).kind ≠ kind →
      faultsWith i s 6) ∧
    (s.hv a = true → (s.h a).numChannels = nch → (s.h a).bitsPerSample = bps → (s.sb a).kind = kind →
      2 ^ 30 ≤ (s.h a).sampleRate.toNat → faultsWith i s 7) := by
  obtain ⟨nbytes, out, hexec⟩ := hexec
  rw [faultsWith, faultsWith, faultsWith, hexec, afterChecks]
  refine ⟨fun hv => ?_, fun hv hf => ?_, fun hv hn hb hk => ?_, fun hv hn hb hk hr => ?_⟩
  · rw [if_pos hv]
    exact raise_eq .invalidOperand s
  · rw [if_neg (by simp [hv]), if_pos hf]
    exact raise_eq .unsupportedFormat s
  · rw [if_neg (by simp [hv]), if_neg (not_not_intro ⟨hn, hb⟩), if_pos hk]
    exact raise_eq .invalidOperand s
  · rw [if_neg (by simp [hv]), if_neg (not_not_intro ⟨hn, hb⟩), if_neg (not_not_intro hk),
      deliver_of_rate d nbytes out _ s hframe hr]
    exact raise_eq .rangeOverflow s

/-- Settles O53: MSE and MSD make the same checks, and each derives a byteRate of four times the sample rate. -/
theorem packedFaultsInOrder : Obligations.PackedFaultsInOrder := fun d a s =>
  ⟨faultsWith_of_afterChecks rfl (exec_mse_eq_afterChecks d a s),
    faultsWith_of_afterChecks rfl (exec_msd_eq_afterChecks d a s)⟩

/-! ### MSD after MSE (R173) -/

theorem semiSum_packPair (p : Half × Half) : semiSum (packPair p) = s16 p.2 := by rw [semiSum, packPair_high]

theorem semiDiff_packPair (p : Half × Half) : semiDiff (packPair p) = s16 p.1 := by rw [semiDiff, packPair_low]

/-- What MSD makes of a pair that MSE packed. -/
theorem unpackWord_packPair (l r : Half) :
    unpackWord (packPair (l, r)) = (u16 (clamp16 (s16 r + s16 l)), u16 (clamp16 (s16 r - s16 l))) := by
  rw [unpackWord, semiSum_packPair, semiDiff_packPair]

/-- Saturated sum and difference give a pair back only when it is zero: unclamped, the sum is `l` only for `r = 0`,
and then the difference is `-l`; a clamped sum leaves an `r` that the difference misses. -/
theorem clamp16_sum_and_difference_iff (l r : Int) :
    (clamp16 (r + l) = l ∧ clamp16 (r - l) = r) ↔ l = 0 ∧ r = 0 := by
  rw [clamp16_eq, clamp16_eq]
  omega

/-- MSD's output is the packed pair only when that is zero (R173). -/
theorem unpackWord_packPair_eq_iff (l r : Half) :
    ((unpackWord (packPair (l, r))).1 = l ∧ (unpackWord (packPair (l, r))).2 = r) ↔ s16 l = 0 ∧ s16 r = 0 := by
  have hpattern : ∀ (x : Int) (p : Half), u16 (clamp16 x) = p ↔ clamp16 x = s16 p := fun x p => by
    rw [← BitVec.toInt_inj, ← s16, ← s16, s16_u16_clamp16]
  rw [unpackWord_packPair, hpattern, hpattern, clamp16_sum_and_difference_iff]

/-- Settles O54: MSE's result meets MSD's checks, and each word of it unpacks to the saturated sum and difference. -/
theorem msdAfterMseIsNotTheIdentity : Obligations.MsdAfterMseIsNotTheIdentity := by
  intro m a d s q hs hv hn hb hq hr
  obtain ⟨t, ht, -, htv, hth, htq⟩ := exec_mse_completes m hs hv hn hb hq hr
  obtain ⟨htn, htb, hrate⟩ := format_of_derivedFrom hth
  have hlen : ((stereoPairs q).map packPair).length = q.length / 2 := by simp
  obtain ⟨u, hu, -, -, huh, huq⟩ := exec_msd_completes d (by rw [hlen]; exact packed_size_le hs hq) htv htn htb htq
    (by rwa [hrate])
  rw [hlen] at huh
  refine ⟨t, u, _, _, ht, hu, htq, huq, hlen, by simp, hth, derivedFrom_trans hth huh, fun n hlt => ?_⟩
  obtain ⟨hleft, hright⟩ := unpackedWords_getD hlt
  rw [hleft, hright, packedPairs_getD (by omega)]
  refine ⟨semiSum_packPair _, semiDiff_packPair _, ?_, ?_, unpackWord_packPair_eq_iff _ _⟩
  · rw [unpackWord_packPair, s16_u16_clamp16]
  · rw [unpackWord_packPair, s16_u16_clamp16]

/-! ### The saturating datapath (R174) -/

/-- A 17-bit value is out of the 16-bit range exactly when its bits 16 and 15 differ, and bit 16 is its sign. -/
theorem s16_saturate17 (x : BitVec 17) : s16 (saturate17 x) = clamp16 x.toInt := by
  have hlt := x.isLt
  have hbit : ∀ n, x.getLsbD n = decide (x.toNat / 2 ^ n % 2 = 1) := fun _ => Nat.testBit_eq_decide_div_mod_eq
  have hlow : (x.truncate 16).toNat = x.toNat % 2 ^ 16 := BitVec.toNat_setWidth ..
  rw [saturate17, clamp16_eq, BitVec.toInt]
  split
  case isTrue hdiff =>
    simp only [hbit, ne_eq, decide_eq_decide] at hdiff
    split
    case isTrue hneg =>
      simp only [hbit, decide_eq_true_eq] at hneg
      have : s16 0x8000 = -32768 := by decide
      omega
    case isFalse hpos =>
      simp only [hbit, decide_eq_true_eq] at hpos
      have : s16 0x7FFF = 32767 := by decide
      omega
  case isFalse hsame =>
    simp only [hbit, ne_eq, decide_eq_decide, not_not] at hsame
    rw [s16_eq, hlow]
    omega

/-- Settles O56: the 17-bit sum and difference are exact, and so is the saturation. -/
theorem saturatingDatapathIsExact : Obligations.SaturatingDatapathIsExact := fun p m =>
  ⟨(s16_saturate17 _).trans (congrArg clamp16 (toInt_sext17_add p m)),
    (s16_saturate17 _).trans (congrArg clamp16 (toInt_sext17_sub p m))⟩

end Sys2Proof.Machine
end

section
/-!
PROOFS for the family of 60_exceptions.md: the STATUS update of every command word (R201, R205, R207), what a fault
leaves (R203, R206), and what the outcome of a command depends on (R210).
-/
namespace Sys2Proof.Machine

/-! ### How a command ends (R205, R206) -/

/-- `o` is the end of a command that began in `s`, with the code `n` (0 on completion) and the advisory `adv`: STATUS
is updated from what it was in `s`, and a fault has written nothing else. -/
def EndsAs (s : State) (n : Nat) (adv : Advisory) (o : Host.Outcome State Fault Refusal) : Prop :=
  ∃ fault u, o = .next (u.setStatus (statusAfter s.status fault adv)) ∧ (errAfter fault).toNat = n ∧ (n ≠ 0 → u = s)

theorem errAfter_some_toNat (f : FaultCode) : (errAfter (some f)).toNat = f.code := by cases f <;> rfl

section
variable {s : State} {n m : Nat} {adv : Advisory}

theorem endsAs_raiseAdvising (f : FaultCode) : EndsAs s f.code adv (raiseAdvising f adv s) :=
  ⟨some f, s, rfl, errAfter_some_toNat f, fun _ => rfl⟩

theorem endsAs_raise (f : FaultCode) : EndsAs s f.code Advisory.clear (raise f s) := endsAs_raiseAdvising f

theorem endsAs_completeAdvising {u : State} (hst : u.status = s.status) : EndsAs s 0 adv (completeAdvising adv u) :=
  ⟨none, u, by rw [← hst]; rfl, rfl, fun h => absurd rfl h⟩

theorem endsAs_complete {u : State} (hst : u.status = s.status) : EndsAs s 0 Advisory.clear (complete u) :=
  endsAs_completeAdvising hst

/-- A check decides the outcome and the code alike. -/
theorem endsAs_ite {c c' : Prop} [Decidable c] [Decidable c'] {x y : Host.Outcome State Fault Refusal} (hc : c' ↔ c)
    (hx : EndsAs s n adv x) (hy : EndsAs s m adv y) : EndsAs s (if c then n else m) adv (if c' then x else y) := by
  by_cases h : c
  · rwa [if_pos h, if_pos (hc.2 h)]
  · rwa [if_neg h, if_neg (mt hc.1 h)]

/-- A delivery overflows from a sample rate on, the one at which the derived byteRate is 2^32 (R107). -/
theorem endsAs_deliver (d : SlotNo) (h : WaveHeader) {nch bps limit : Nat} (nbytes : Nat) (out : SampleBuffer)
    (hlimit : limit * (nch * bps) = 2 ^ 32 * 8) :
    EndsAs s (if limit ≤ h.sampleRate.toNat then 7 else 0) adv (deliver d h nch bps nbytes out adv s) := by
  have hover : 4294967295 < h.sampleRate.toNat * nch * bps / 8 ↔ limit ≤ h.sampleRate.toNat := by
    have hpos : 0 < nch * bps := Nat.pos_of_ne_zero fun h0 => by simp [h0] at hlimit
    rw [← Nat.succ_le_iff, Nat.le_div_iff_mul_le (by decide), Nat.mul_assoc]
    exact hlimit ▸ Nat.mul_le_mul_right_iff hpos
  obtain ⟨hlt, hd⟩ | ⟨hle, g, -, hd⟩ := deliver_cases d h nch bps nbytes out adv s
  · rw [hd, if_pos (hover.1 hlt)]
    exact endsAs_raiseAdvising .rangeOverflow
  · rw [hd, if_neg (mt hover.2 (Nat.not_lt.2 hle))]
    exact endsAs_completeAdvising rfl

/-- The checks of a transform of one source, in the order of R207. -/
theorem endsAs_afterChecks {nch bps : Half} {kind : SampleKind} {a : SlotNo} {limit : Nat}
    {rest : Host.Outcome State Fault Refusal}
    (hrest : EndsAs s (if limit ≤ (s.h a).sampleRate.toNat then 7 else 0) Advisory.clear rest) :
    EndsAs s (transformFaultCode s a nch bps kind limit) Advisory.clear (afterChecks nch bps kind a s rest) :=
  endsAs_ite .rfl (endsAs_raise .invalidOperand) <|
    endsAs_ite Decidable.not_and_iff_or_not (endsAs_raise .unsupportedFormat) <|
      endsAs_ite .rfl (endsAs_raise .invalidOperand) hrest

end

/-- S2M makes the checks of MSE and MSD on its own source (42_stereo_to_mono.md R140). -/
theorem s2mBody_eq_afterChecks (f : Int → Int → Int) (d a : SlotNo) (s : State) : ∃ nbytes out, s2mBody f d a s =
    afterChecks 2 16 .i16 a s (deliver d (s.h a) 1 16 nbytes out Advisory.clear s) := by
  cases hq : s.sb a with
  | i16 q => exact ⟨_, _, by simp only [s2mBody, afterChecks, hq]; rfl⟩
  | none | u32 => exact ⟨0, .none, by simp only [s2mBody, afterChecks, hq]; rfl⟩

theorem endsAs_s2mBody (f : Int → Int → Int) (d a : SlotNo) (s : State) :
    EndsAs s (transformFaultCode s a 2 16 .i16 (2 ^ 31)) Advisory.clear (s2mBody f d a s) := by
  obtain ⟨nbytes, out, he⟩ := s2mBody_eq_afterChecks f d a s
  exact he ▸ endsAs_afterChecks (endsAs_deliver d _ nbytes out rfl)

/-! ### The advisory of M2S (R204, 43_mono_to_stereo.md R161) -/

/-- M2S of slots `a` and `b` reaches its comparison: both headers are valid, mono and of 16 bits. -/
abbrev ReachesComparison (s : State) (a b : SlotNo) : Prop :=
  s.hv a = true ∧ s.hv b = true ∧ (s.h a).numChannels = 1 ∧ (s.h b).numChannels = 1 ∧
    (s.h a).bitsPerSample = 16 ∧ (s.h b).bitsPerSample = 16

/-- The advisory of a command: M2S's comparison where it is reached, clear otherwise. -/
def advisoryOf (i : Instr) (s : State) : Advisory :=
  match i with
  | .m2s _ a b => if ReachesComparison s a b then m2sAdvisory (s.h a) (s.h b) else Advisory.clear
  | _ => Advisory.clear

theorem endsAs_m2sCombine (d : SlotNo) (hl : WaveHeader) (ql qr : List Half) (adv : Advisory) (s : State) :
    EndsAs s (if s.pbMax < 4 * min ql.length qr.length ∨ 2 ^ 30 ≤ hl.sampleRate.toNat then 7 else 0) adv
      (m2sCombine d hl ql qr adv s) := by
  rw [ite_or]
  exact endsAs_ite .rfl (endsAs_raiseAdvising .rangeOverflow) (endsAs_deliver d hl _ _ rfl)

theorem advisoryOf_m2s_of_not_reached (d : SlotNo) {a b : SlotNo} {s : State} (h : ¬ReachesComparison s a b) :
    advisoryOf (.m2s d a b) s = Advisory.clear :=
  if_neg h

/-- The checks of M2S, in the order of R207; from the comparison on, its result goes into STATUS. -/
theorem endsAs_execM2s (d a b : SlotNo) (s : State) :
    EndsAs s (faultCodeOf (.m2s d a b) s) (advisoryOf (.m2s d a b) s) (execM2s d a b s) := by
  simp only [faultCodeOf]
  by_cases hv : s.hv a = false ∨ s.hv b = false
  · have hnot : ¬ReachesComparison s a b := fun ⟨hva, hvb, _⟩ => by simp [hva, hvb] at hv
    rw [if_pos hv, advisoryOf_m2s_of_not_reached d hnot, execM2s_of_invalid d hv]
    exact endsAs_raise .invalidOperand
  obtain ⟨hva, hvb⟩ : s.hv a = true ∧ s.hv b = true := by simpa using hv
  rw [if_neg hv]
  by_cases hf : isMono16 (s.h a) ∧ isMono16 (s.h b)
  case neg =>
    have hfields := mt (isMono16_and_iff ..).2 hf
    rw [if_pos (by tauto), advisoryOf_m2s_of_not_reached d fun ⟨_, _, h⟩ => hfields h, execM2s_of_format d hva hvb hf]
    exact endsAs_raise .unsupportedFormat
  have hfields := (isMono16_and_iff ..).1 hf
  have hadv : advisoryOf (.m2s d a b) s = m2sAdvisory (s.h a) (s.h b) := if_pos ⟨hva, hvb, hfields⟩
  rw [if_neg (by tauto), hadv]
  by_cases hk : (s.sb a).kind ≠ .i16 ∨ (s.sb b).kind ≠ .i16
  · rw [if_pos hk, execM2s_of_kind d hva hvb hf hk]
    exact endsAs_raiseAdvising .invalidOperand
  · rw [if_neg hk]
    obtain ⟨hka, hkb⟩ := not_or.1 hk
    obtain ⟨ql, hqa⟩ := (kind_eq_i16_iff _).1 (not_not.1 hka)
    obtain ⟨qr, hqb⟩ := (kind_eq_i16_iff _).1 (not_not.1 hkb)
    rw [execM2s_of_i16 d hva hvb hf hqa hqb, hqa, hqb]
    exact endsAs_m2sCombine d _ ql qr _ s

/-! ### The STATUS update (R205) -/

/-- Every command ends with the code of the first check of R201 that fails. -/
theorem exec_endsAs (i : Instr) (s : State) : EndsAs s (faultCodeOf i s) (advisoryOf i s) (exec i s) := by
  cases i with
  | hdec d a => exact endsAs_ite .rfl (endsAs_raise .truncatedInput) (endsAs_complete rfl)
  | henc d a => exact endsAs_ite .rfl (endsAs_raise .invalidOperand) (endsAs_complete rfl)
  | d16 d a | d32 d a => exact endsAs_ite .rfl (endsAs_raise .misalignedBuffer) (endsAs_complete rfl)
  | e16 d a =>
    simp only [faultCodeOf, exec, execE16]
    cases s.sb a with
    | none | u32 q => exact endsAs_raise .invalidOperand
    | i16 q => exact endsAs_complete rfl
  | e32 d a =>
    simp only [faultCodeOf, exec, execE32]
    cases s.sb a with
    | none | i16 q => exact endsAs_raise .invalidOperand
    | u32 q => exact endsAs_complete rfl
  | s2mLeft d a => exact endsAs_s2mBody modeLeft d a s
  | s2mRight d a => exact endsAs_s2mBody modeRight d a s
  | s2mSum d a => exact endsAs_s2mBody modeSum d a s
  | s2mDiff d a => exact endsAs_s2mBody modeDiff d a s
  | m2s d a b => exact endsAs_execM2s d a b s
  | mse d a =>
    obtain ⟨nbytes, out, he⟩ := exec_mse_eq_afterChecks d a s
    exact he ▸ endsAs_afterChecks (endsAs_deliver d _ nbytes out rfl)
  | msd d a =>
    obtain ⟨nbytes, out, he⟩ := exec_msd_eq_afterChecks d a s
    exact he ▸ endsAs_afterChecks (endsAs_deliver d _ nbytes out rfl)

/-- The advisory of a command word: a reserved one leaves none. -/
def wordAdvisory (w : Half) (s : State) : Advisory :=
  match decode w with
  | .ok i => advisoryOf i s
  | .error _ => Advisory.clear

theorem hostCmd_endsAs (w : Half) (s : State) : EndsAs s (wordFaultCode w s) (wordAdvisory w s) (hostCmd w s) := by
  unfold wordFaultCode wordAdvisory hostCmd
  cases decode w with
  | ok i => exact exec_endsAs i s
  | error e => exact endsAs_raise .illegalCommand

theorem wordAdvisory_of_reached {w : Half} {s : State} {d a b : SlotNo} (hw : decode w = .ok (.m2s d a b))
    (h : ReachesComparison s a b) : wordAdvisory w s = m2sAdvisory (s.h a) (s.h b) := by
  simp only [wordAdvisory, hw, advisoryOf, if_pos h]

theorem wordAdvisory_of_not_reached {w : Half} {s : State}
    (h : ∀ d a b, decode w = .ok (.m2s d a b) → ¬ReachesComparison s a b) : wordAdvisory w s = Advisory.clear := by
  unfold wordAdvisory
  cases hw : decode w with
  | error e => rfl
  | ok i =>
    cases i with
    | m2s d a b => exact advisoryOf_m2s_of_not_reached d (h d a b hw)
    | _ => rfl

/-- Codes are from 1 on, so a code in `ERR` is the one of the fault. -/
theorem errAfter_toNat_eq_iff (fault : Option FaultCode) {k : Nat} (hk : 1 ≤ k) :
    (errAfter fault).toNat = k ↔ fault.any (fun f => f.code = k) = true := by
  rcases fault with _ | f
  · have hne : 0 ≠ k := by omega
    simp [errAfter, hne]
  · simp [errAfter_some_toNat]

/-- The codes that `ERR` can hold (10_state.md R41). -/
theorem errAfter_toNat_mem (fault : Option FaultCode) : (errAfter fault).toNat ∈ [0, 1, 2, 3, 5, 6, 7] := by
  rcases fault with _ | f
  · decide
  · cases f <;> decide

/-- Settles O22: the word ends with its code and its advisory, and R205's update puts them into STATUS. -/
theorem statusUpdateOfEveryCommand : Obligations.StatusUpdateOfEveryCommand := by
  intro w s
  obtain ⟨fault, u, he, hcode, hslots⟩ := hostCmd_endsAs w s
  refine ⟨_, he, ?_⟩
  simp only [setStatus_status, setStatus_slots, statusErr_statusAfter, statusWrate_statusAfter,
    statusWlen_statusAfter]
  refine ⟨hcode, fun h => congrArg State.slots (hslots h), statusReserved_statusAfter .., errAfter_toNat_mem fault,
    fun k h1 h7 => ?_, fun d a b hw hva hvb hna hnb hba hbb => ?_, fun h => ?_⟩
  · rw [stickyOf_statusAfter _ _ _ k h1 h7, ← hcode, errAfter_toNat_eq_iff fault h1]
    simp [or_assoc]
  · rw [wordAdvisory_of_reached hw ⟨hva, hvb, hna, hnb, hba, hbb⟩]
    simp [m2sAdvisory]
  · rw [wordAdvisory_of_not_reached h]
    exact ⟨rfl, rfl⟩

/-! ### A fault (R203, R206) -/

/-- A word that leaves a code in `ERR` did nothing but the STATUS update of its fault. -/
theorem hostCmd_faulted {w : Half} {s t : State} (h : hostCmd w s = .next t) (herr : statusErr t.status ≠ 0) :
    ∃ f adv, t = s.setStatus (statusAfter s.status (some f) adv) := by
  obtain ⟨fault, u, he, hcode, hu⟩ := hostCmd_endsAs w s
  cases he.symm.trans h
  rw [setStatus_status, statusErr_statusAfter, Ne, errAfter_eq_zero_iff] at herr
  obtain ⟨f, rfl⟩ := Option.ne_none_iff_exists'.1 herr
  have hne : wordFaultCode w s ≠ 0 := by
    rw [← hcode, errAfter_some_toNat]
    cases f <;> decide
  exact ⟨f, wordAdvisory w s, by rw [hu hne]⟩

/-- Settles O23: the word written is that of the fault with its advisory. -/
theorem faultChangesNothingButStatus : Obligations.FaultChangesNothingButStatus := by
  intro w s t h herr
  obtain ⟨f, adv, rfl⟩ := hostCmd_faulted h herr
  rw [setStatus_status, statusErr_statusAfter, statusWrate_statusAfter, statusWlen_statusAfter, errAfter_some_toNat,
    statusAfter_advisedFault]

/-- No check reads STATUS. -/
theorem wordFaultCode_setStatus (w : Half) (s : State) (v : Half) :
    wordFaultCode w (s.setStatus v) = wordFaultCode w s := by
  unfold wordFaultCode
  cases decode w with
  | error e => rfl
  | ok i => cases i <;> rfl

theorem statusErr_hostCmd {w : Half} {s t : State} (h : hostCmd w s = .next t) :
    (statusErr t.status).toNat = wordFaultCode w s := by
  obtain ⟨fault, u, he, hcode, -⟩ := hostCmd_endsAs w s
  cases he.symm.trans h
  rwa [setStatus_status, statusErr_statusAfter]

/-- Settles O24: the state after a fault differs in STATUS alone, which no check reads. -/
theorem retryFaultsAgain : Obligations.RetryFaultsAgain := by
  intro w s t h herr
  obtain ⟨f, adv, rfl⟩ := hostCmd_faulted h herr
  obtain ⟨u, hu⟩ := hostCmd_ends w (s.setStatus (statusAfter s.status (some f) adv))
  refine ⟨rfl, fun v => hostCmd_ends v _, u, hu, ?_⟩
  apply BitVec.eq_of_toNat_eq
  rw [statusErr_hostCmd hu, statusErr_hostCmd h, wordFaultCode_setStatus]

/-! ### What an outcome depends on (R210) -/

/-- `o` and `o'` are outcomes of command `i`, from two states: they have the same fault (or none), the same advisory
and, on completion, the same values in what `i` writes. -/
def SameReport (i : Instr) (o o' : Host.Outcome State Fault Refusal) : Prop :=
  ∃ fault adv u u', o = finish fault adv u ∧ o' = finish fault adv u' ∧
    (fault = none → agreeOnWrites i (destOf i) (destOf i) u u')

section
variable {i : Instr} {s s' : State}

theorem sameReport_ite {c : Prop} [Decidable c] {x x' y y' : Host.Outcome State Fault Refusal}
    (hx : SameReport i x x') (hy : SameReport i y y') :
    SameReport i (if c then x else y) (if c then x' else y') := by
  by_cases hc : c
  · simpa only [hc, if_true] using hx
  · simpa only [hc, if_false] using hy

theorem sameReport_raiseAdvising (f : FaultCode) (adv : Advisory) :
    SameReport i (raiseAdvising f adv s) (raiseAdvising f adv s') :=
  ⟨some f, adv, s, s', rfl, rfl, fun h => by cases h⟩

theorem sameReport_raise (f : FaultCode) : SameReport i (raise f s) (raise f s') :=
  sameReport_raiseAdvising f Advisory.clear

theorem sameReport_complete {u u' : State} (h : agreeOnWrites i (destOf i) (destOf i) u u') :
    SameReport i (complete u) (complete u') :=
  ⟨none, Advisory.clear, u, u', rfl, rfl, fun _ => h⟩

/-- The test of a valid bit: past it the header registers agree (10_state.md R24). -/
theorem sameReport_ite_hv {a : SlotNo} {x x' : Host.Outcome State Fault Refusal}
    (hsee : headerSeen s a = headerSeen s' a) (hx : s.h a = s'.h a → SameReport i x x') :
    SameReport i (if s.hv a = false then raise .invalidOperand s else x)
      (if s'.hv a = false then raise .invalidOperand s' else x') := by
  unfold headerSeen at hsee
  cases hv : s.hv a <;> cases hv' : s'.hv a
  case false.false => exact sameReport_raise _
  case true.true => exact hx (by simpa [hv, hv'] using hsee)
  all_goals simp [hv, hv'] at hsee

theorem sameReport_deliver (hi : isTransform i = true) (h : WaveHeader) (nch bps nbytes : Nat) (out : SampleBuffer)
    (adv : Advisory) :
    SameReport i (deliver (destOf i) h nch bps nbytes out adv s) (deliver (destOf i) h nch bps nbytes out adv s') := by
  unfold deliver
  cases deriveHeader h nch bps nbytes with
  | none => exact sameReport_raiseAdvising .rangeOverflow adv
  | some g =>
    refine ⟨none, adv, _, _, rfl, rfl, fun _ => ?_⟩
    cases i <;> simp_all [agreeOnWrites, isTransform]

theorem sameReport_s2mBody (hi : isTransform i = true) (f : Int → Int → Int) {a : SlotNo}
    (hsee : headerSeen s a = headerSeen s' a) (hsb : s.sb a = s'.sb a) :
    SameReport i (s2mBody f (destOf i) a s) (s2mBody f (destOf i) a s') := by
  unfold s2mBody
  refine sameReport_ite_hv hsee fun hh => ?_
  rw [hh, hsb]
  refine sameReport_ite (sameReport_raise _) ?_
  cases s'.sb a with
  | none | u32 q => exact sameReport_raise _
  | i16 q => exact sameReport_deliver hi ..

theorem sameReport_execM2s (hi : isTransform i = true) {a b : SlotNo} (hsee : headerSeen s a = headerSeen s' a)
    (hsb : s.sb a = s'.sb a) (hsee' : headerSeen s b = headerSeen s' b) (hsb' : s.sb b = s'.sb b)
    (hp : s.pbMax = s'.pbMax) : SameReport i (execM2s (destOf i) a b s) (execM2s (destOf i) a b s') := by
  simp only [execM2s, m2sCombine, ite_or]
  refine sameReport_ite_hv hsee fun hh => sameReport_ite_hv hsee' fun hh' => ?_
  rw [hh, hh', hsb, hsb', hp]
  refine sameReport_ite (sameReport_raise _) ?_
  split
  · exact sameReport_ite (sameReport_raiseAdvising ..) (sameReport_deliver hi ..)
  · exact sameReport_raiseAdvising ..

end

/-- The checks of a command and what it writes are made from the components it reads. -/
theorem exec_sameReport {i : Instr} {s s' : State} (h : agreeOnReads i s s') :
    SameReport i (exec i s) (exec i s') := by
  cases i with
  | hdec d a =>
    have hhb : s.hb a = s'.hb a := h
    simp only [exec, execHdec, hhb]
    exact sameReport_ite (sameReport_raise _) (sameReport_complete (by simp [agreeOnWrites, destOf]))
  | henc d a =>
    exact sameReport_ite_hv h fun hh => sameReport_complete (by simp [agreeOnWrites, destOf, hh])
  | d16 d a | d32 d a =>
    have hpb : s.pb a = s'.pb a := h
    simp only [exec, execD16, execD32, hpb]
    exact sameReport_ite (sameReport_raise _) (sameReport_complete (by simp [agreeOnWrites, destOf]))
  | e16 d a =>
    have hsb : s.sb a = s'.sb a := h
    simp only [exec, execE16, hsb]
    cases s'.sb a with
    | none | u32 q => exact sameReport_raise _
    | i16 q => exact sameReport_complete (by simp [agreeOnWrites, destOf])
  | e32 d a =>
    have hsb : s.sb a = s'.sb a := h
    simp only [exec, execE32, hsb]
    cases s'.sb a with
    | none | i16 q => exact sameReport_raise _
    | u32 q => exact sameReport_complete (by simp [agreeOnWrites, destOf])
  | s2mLeft d a => exact sameReport_s2mBody rfl modeLeft h.1 h.2
  | s2mRight d a => exact sameReport_s2mBody rfl modeRight h.1 h.2
  | s2mSum d a => exact sameReport_s2mBody rfl modeSum h.1 h.2
  | s2mDiff d a => exact sameReport_s2mBody rfl modeDiff h.1 h.2
  | m2s d a b =>
    obtain ⟨hsee, hsb, hsee', hsb', hp⟩ := h
    exact sameReport_execM2s rfl hsee hsb hsee' hsb' hp
  | mse d a =>
    obtain ⟨hsee, hsb⟩ := h
    refine sameReport_ite_hv hsee fun hh => ?_
    rw [hh, hsb]
    refine sameReport_ite (sameReport_raise _) ?_
    cases s'.sb a with
    | none | u32 q => exact sameReport_raise _
    | i16 q => exact sameReport_deliver rfl ..
  | msd d a =>
    obtain ⟨hsee, hsb⟩ := h
    refine sameReport_ite_hv hsee fun hh => ?_
    rw [hh, hsb]
    refine sameReport_ite (sameReport_raise _) ?_
    cases s'.sb a with
    | none | i16 q => exact sameReport_raise _
    | u32 q => exact sameReport_deliver rfl ..

/-- Settles O25: the same fault and advisory go into STATUS, and `ERR` is 0 only on completion. -/
theorem outcomeDependsOnlyOnWhatIsRead : Obligations.OutcomeDependsOnlyOnWhatIsRead := by
  intro i s s' t t' hreads h h'
  obtain ⟨fault, adv, u, u', he, he', hw⟩ := exec_sameReport hreads
  cases he.symm.trans h
  cases he'.symm.trans h'
  simp only [setStatus_status, statusErr_statusAfter, statusWrate_statusAfter, statusWlen_statusAfter, true_and]
  exact fun herr => agreeOnWrites_setStatus (hw ((errAfter_eq_zero_iff fault).1 herr)) _ _

end Sys2Proof.Machine
end

section
/-!
PROOFS for the family of 70_reset_and_hazards.md: what Reset leaves and what the use of a slot does then (R230, R55),
and that every command ends (R250, R203).
-/
namespace Sys2Proof.Machine

/-! ### Reset (R230, R55) -/

/-- With no sticky bit set, the STATUS update of a completed command leaves the state it is made on. -/
theorem setStatus_doneStatus_of_status_eq_zero {u : State} (h : u.status = 0) :
    u.setStatus (doneStatus u.status) = u := by
  have hdone : doneStatus u.status = u.status := by rw [h]; decide
  rw [hdone, setStatus_self]

section
variable {s : State} (d : SlotNo) {a : SlotNo} (hpb : s.pb a = []) (hst : s.status = 0)
include hpb hst

/-- D16 decodes the empty payload to no element (41_sample_codec.md R120). -/
theorem exec_d16_of_empty : exec (.d16 d a) s = .next (s.setSb d (.i16 [])) := by
  have hlen : (s.pb a).length % 2 = 0 := by simp [hpb]
  rw [exec_d16_ok d hlen, hpb, samples16]
  exact congrArg _ (setStatus_doneStatus_of_status_eq_zero (u := s.setSb d (.i16 [])) hst)

/-- D32 decodes the empty payload to no element (41_sample_codec.md R122). -/
theorem exec_d32_of_empty : exec (.d32 d a) s = .next (s.setSb d (.u32 [])) := by
  have hlen : (s.pb a).length % 4 = 0 := by simp [hpb]
  have hnone : samples32 [] = [] := rfl
  rw [exec_d32_ok d hlen, hpb, hnone]
  exact congrArg _ (setStatus_doneStatus_of_status_eq_zero (u := s.setSb d (.u32 [])) hst)

end

/-- Settles O15: the step is Reset, after which a command finds no header byte, no payload byte, no valid header
register and no sample buffer to read. -/
theorem resetActionClearsTheBlock : Obligations.ResetActionClearsTheBlock := by
  intro s hact
  have hhb : ∀ k, s.blockReset.advance.hb k = [] := hb_blockReset s
  have hpb : ∀ k, s.blockReset.advance.pb k = [] := pb_blockReset s
  have hhv : ∀ k, s.blockReset.advance.hv k = false := hv_blockReset s
  have hsb : ∀ k, s.blockReset.advance.sb k = .none := sb_blockReset s
  have hst : s.blockReset.advance.status = 0 := blockReset_status s
  refine ⟨s.blockReset.advance, step_of_nextAction hact, hst,
    fun k => ⟨hhb k, hpb k, hhv k, (kind_eq_none_iff _).2 (hsb k)⟩, fun d a => ?_,
    faultsWith_of_nothing_to_read hhv hsb, fun d a => ?_⟩
  · exact faultsWith_hdec_of_short d (by simp [hhb a])
  · exact ⟨exec_d16_of_empty d (hpb a) hst, exec_d32_of_empty d (hpb a) hst⟩

/-! ### Every command ends (R250, R203) -/

/-- Settles O21: a command ends with a fault or complete (`exec_shape`), in either case with a next state. -/
theorem everyCommandEnds : Obligations.EveryCommandEnds := exec_ends

end Sys2Proof.Machine
end
